-- ==== Sys2Proof/Word.lean ====
section
/-! DEFINITION. The word types of the CHIP-8 core: spec/00_scope.md R5 and R7 (fixed sizes, unsigned values). -/

namespace Sys2Proof

/-- A byte: a general register, a timer, a memory byte, the immediate `NN` (R5, R61). -/
abbrev Byte := BitVec 8

/-- A 16-bit word: `pc`, `I`, a stack entry, an opcode (R5, R60). -/
abbrev Word := BitVec 16

/-- A 4-bit field of an opcode (R9, R61). -/
abbrev Nibble := BitVec 4

/-- The 12-bit immediate `NNN` (R61). -/
abbrev Addr12 := BitVec 12

/-- A general register index, V0 to VF (R11), and equally a logical key number (R93). -/
abbrev Reg := Fin 16

/-- The key state of one tick: bit `k` is set when logical key `k` is pressed (R93). -/
abbrev KeyState := BitVec 16

end Sys2Proof
end

