-- ==== Sys2Proof/Config.lean ====
section
/-! DEFINITION. The parameters of the machine (spec/00_scope.md R6) and its free values: the host's key states and
random bytes (spec/93_implementation_defined.md U10, U11). -/

namespace Sys2Proof

/-- The parameters the spec leaves open (R6, 92_eei_decisions.md D18 and D21). A statement about every state is a
statement about every value of them; no step writes them (log 4). -/
structure Config where
  /-- `CYCLES_PER_TICK`, the number N of cycles one tick runs before its timer step; any natural number (R6, R87). -/
  cyclesPerTick : Nat
  /-- `FONT[5..79]`, the bytes of glyphs 1 to F at addresses 0x005 to 0x04F (R6, R43). -/
  fontTail : Vector Byte 75
deriving DecidableEq, Repr

namespace Config

/-- `FONT[0..4]`, glyph 0: the only font bytes the source gives (R43, R231). -/
def glyph0 : Vector Byte 5 := #v[0xF0, 0x90, 0x90, 0x90, 0xF0]

/-- The default of `FONT[5..79]`: glyphs 1 to F of the table of R43.
PRESUMED (log 5): the spec marks these bytes as general knowledge, not as the source's. Unsafe. -/
def defaultFontTail : Vector Byte 75 := #v[
  0x20, 0x60, 0x20, 0x20, 0x70,
  0xF0, 0x10, 0xF0, 0x80, 0xF0,
  0xF0, 0x10, 0xF0, 0x10, 0xF0,
  0x90, 0x90, 0xF0, 0x10, 0x10,
  0xF0, 0x80, 0xF0, 0x10, 0xF0,
  0xF0, 0x80, 0xF0, 0x90, 0xF0,
  0xF0, 0x10, 0x20, 0x40, 0x40,
  0xF0, 0x90, 0xF0, 0x90, 0xF0,
  0xF0, 0x90, 0xF0, 0x10, 0xF0,
  0xF0, 0x90, 0xF0, 0x90, 0x90,
  0xE0, 0x90, 0xE0, 0x90, 0xE0,
  0xF0, 0x80, 0x80, 0x80, 0xF0,
  0xE0, 0x90, 0x90, 0x90, 0xE0,
  0xF0, 0x80, 0xF0, 0x80, 0xF0,
  0xF0, 0x80, 0xF0, 0x80, 0x80]

/-- The parameters at the values this hardware takes: 540 Hz ÷ 60 Hz = 9 cycles per tick (R6, R87) and the default
font (R43). -/
def default : Config := { cyclesPerTick := 9, fontTail := defaultFontTail }

/-- FREE VALUE: the key state the host supplies for its `n`-th tick not fixed beforehand (R93, U11; log 2).
It has no body: nothing can be proved of its values. -/
opaque freeKeys : Nat → KeyState

/-- FREE VALUE: the byte the host returns to its `n`-th random query not fixed beforehand (R94, U10; log 3).
It has no body: nothing can be proved of its values. -/
opaque freeRandom : Nat → Byte

end Config

end Sys2Proof
end

