-- ==== Sys2Proof/Machine/State.lean ====
section
/-! DEFINITION. The state of the core (spec/10_state.md R10), as plain data, with its value after reset (R34), and the
reasons a step can stop. -/

namespace Sys2Proof.Machine

/-- `MEM` (R40) as the list of the bytes that differ from the reset contents, addresses strictly rising. What an
unlisted address reads as is `Memory.resetByte` (Machine/Ops.lean). -/
abbrev Memory := List Host.Cell

/-- The general registers V0 to VF (R11). -/
abbrev Registers := Vector Byte 16

/-- `FB`: 32 rows of 64 pixels, `fb[y][x]` (R23). -/
abbrev Framebuffer := Vector (Vector Bool 64) 32

/-- `KW` (R27): `RUNNING`, or `WAITING(r)` with the register that will receive the key. -/
inductive KeyWait where
  | running
  | waiting (target : Reg)
deriving DecidableEq, Repr

/-- The kinds of fatal fault a cycle can take (R200). -/
inductive FaultKind where
  | stackUnderflow
  | stackOverflow
  | outOfBoundsMemoryAccess
  | badKeyIndex
deriving DecidableEq, Repr

/-- What the FAULT latch records (R28, R201 to R203, R206): the kind, an address, and the fetched word (absent for a
fetch fault). -/
structure FaultRecord where
  kind : FaultKind
  address : Word
  opcode : Option Word
deriving DecidableEq, Repr

/-- A record of a tick's event list (R208). -/
inductive Event where
  /-- An unknown opcode was executed: the word and the address it was fetched from (R209). -/
  | unknownOpcode (op addr : Word)
  /-- The timer step took the sound timer from 1 to 0 (R210). -/
  | beep
deriving DecidableEq, Repr

/-- The host's two inputs, R93 and R94 (log 2, log 3). Each has a list of values the host has fixed beforehand, oldest
first, and a counter that picks the free value of Config to be used when the list is empty. -/
structure Ports where
  /-- Key states of the coming ticks. -/
  keyInputs : List KeyState
  /-- How many key states were taken from `Config.freeKeys`. -/
  keyDraws : Nat
  /-- Answers to the coming random queries. -/
  randomInputs : List Byte
  /-- How many random bytes were taken from `Config.freeRandom`. -/
  randomDraws : Nat
deriving DecidableEq, Repr

/-- The state of the machine: the parameters (R6), the architectural state (R10), and the position of the tick driver
with its inputs and output (R29, R87, R93, R94; log 1, 2, 3, 6). -/
structure State where
  /-- The parameters of R6; no step writes them. -/
  config : Config
  /-- `MEM` (R40). -/
  mem : Memory
  /-- `V[0]` to `V[15]` (R11); `V[15]` is VF (R13). -/
  v : Registers
  /-- `I` (R15). -/
  i : Word
  /-- `pc` (R16). -/
  pc : Word
  /-- The call stack, the most recent entry first; `SP` is its length (R19). -/
  stack : List Word
  /-- `FB` (R23). -/
  fb : Framebuffer
  /-- `DT` (R25). -/
  dt : Byte
  /-- `ST` (R25). -/
  st : Byte
  /-- `KW` (R27). -/
  kw : KeyWait
  /-- `FAULT` (R28). -/
  fault : Option FaultRecord
  /-- How many cycles of the current tick have been started; 0 between ticks. -/
  cycle : Nat
  /-- The key state of the current tick (R93). -/
  keys : KeyState
  /-- The events of the current tick so far, oldest first; between ticks, those of the last tick (R29). -/
  events : List Event
  /-- The host's inputs to come. -/
  ports : Ports
deriving DecidableEq, Repr

/-- Why a step stops the machine. -/
inductive Fault where
  /-- Raised by `step` alone, when the FAULT latch is set: a faulted core takes no step (R205, log 7). Safe: the
  specification gives no step either. -/
  | coreFaulted (record : FaultRecord)
deriving DecidableEq, Repr

/-- Why an instruction has no meaning. -/
inductive Refusal where
  /-- Raised by an arm of `exec` whose instruction has no meaning yet; no arm does. Safe: the machine stops. -/
  | notModelled (mnemonic : String)
deriving DecidableEq, Repr

/-- The host's ports with nothing fixed: every input is a free value. -/
def Ports.open : Ports := { keyInputs := [], keyDraws := 0, randomInputs := [], randomDraws := 0 }

/-- The core right after reset (R34, R230), for given parameters and host inputs. -/
def State.resetWith (config : Config) (ports : Ports) : State where
  config := config
  mem := []
  v := Vector.replicate 16 0x00
  i := 0x0000
  pc := 0x0200
  stack := []
  fb := Vector.replicate 32 (Vector.replicate 64 false)
  dt := 0x00
  st := 0x00
  kw := .running
  fault := none
  cycle := 0
  keys := 0
  events := []
  ports := ports

/-- The machine right after reset (R34), with the parameters at the values this hardware takes (R6). -/
def State.reset : State := State.resetWith Config.default Ports.open

end Sys2Proof.Machine
end

