-- ==== Sys2Proof/Machine/Ops.lean ====
section
/-! DEFINITION. The named operations over memory, registers, the call stack, the framebuffer, the ports and the fault
latch (spec/00_scope.md R8, spec/10_state.md, spec/20_memory.md, spec/60_exceptions.md R204). -/

namespace Sys2Proof.Machine

/-! ## Memory -/

/-- The contents of an address after reset (R34, R42, R43): the font at 0x000 to 0x04F, zero elsewhere. This is what an
address the memory does not list reads as. -/
def Memory.resetByte (c : Config) (a : Nat) : Byte :=
  if h : a < 5 then Config.glyph0[a]
  else if h : a < 80 then c.fontTail[a - 5]
  else 0x00

/-- `MEM[a]` (R46). -/
def Memory.read (c : Config) : Memory → Nat → Byte
  | [], a => Memory.resetByte c a
  | (b, w) :: rest, a => if a = b then w else if a < b then Memory.resetByte c a else Memory.read c rest a

/-- `MEM[a] <- w` (R47), keeping the canonical form: writing what an unlisted address reads as removes the entry. -/
def Memory.write (c : Config) : Memory → Nat → Byte → Memory
  | [], a, w => if w = Memory.resetByte c a then [] else [(a, w)]
  | (b, u) :: rest, a, w =>
    if a < b then (if w = Memory.resetByte c a then (b, u) :: rest else (a, w) :: (b, u) :: rest)
    else if a = b then (if w = Memory.resetByte c a then rest else (a, w) :: rest)
    else (b, u) :: Memory.write c rest a w

/-- Bytes written at ascending addresses from `a` (R50). -/
def Memory.writeBytes (c : Config) : Memory → Nat → List Byte → Memory
  | m, _, [] => m
  | m, a, w :: ws => Memory.writeBytes c (Memory.write c m a w) (a + 1) ws

/-- The `n` bytes at ascending addresses from `a` (R50). -/
def Memory.readBytes (c : Config) (m : Memory) : Nat → Nat → List Byte
  | _, 0 => []
  | a, n + 1 => Memory.read c m a :: Memory.readBytes c m (a + 1) n

/-- The canonical form from address `lo` up: addresses rise strictly, all below 4096, and no entry equals the reset
contents of its address. -/
def Memory.wfFrom (c : Config) : Nat → Memory → Bool
  | _, [] => true
  | lo, (a, w) :: rest => lo ≤ a && a < 4096 && w != Memory.resetByte c a && Memory.wfFrom c (a + 1) rest

/-- The canonical form of memory (R40: 4096 bytes, "never resized"). -/
def Memory.wf (c : Config) (m : Memory) : Bool := Memory.wfFrom c 0 m

/-- `MemRead(a, 1)` for an address of the machine (R46). -/
def State.readByte (s : State) (a : Nat) : Byte := Memory.read s.config s.mem a

/-- One-byte writes at ascending addresses from `a` (R47, R50). -/
def State.storeBytes (s : State) (a : Nat) (ws : List Byte) : State :=
  { s with mem := Memory.writeBytes s.config s.mem a ws }

/-! ## Registers -/

/-- `V[r]` (R8). -/
def State.reg (s : State) (r : Reg) : Byte := s.v[r]

/-- `V[r] <- w` (R8). -/
def State.setReg (s : State) (r : Reg) (w : Byte) : State := { s with v := s.v.set r w }

/-- `V[k] <- MEM[a + k]` for `k` from 0 to `n - 1`, ascending (R146). -/
def Registers.load (c : Config) (m : Memory) (a : Nat) : Nat → Registers → Registers
  | 0, v => v
  | n + 1, v => (Registers.load c m a n v).setIfInBounds n (Memory.read c m (a + n))

/-- The registers V0 to V`x`, in order (R145). -/
def State.regsUpTo (s : State) (x : Reg) : List Byte := s.v.toList.take (x.val + 1)

/-! ## Program counter and call stack -/

/-- The number of live stack entries (R19). -/
def State.sp (s : State) : Nat := s.stack.length

/-- `pc <- (pc + 2) mod 2^16` (R81). -/
def State.advance (s : State) : State := { s with pc := s.pc + 2 }

/-- `pc <- (pc - 2) mod 2^16` (R84). -/
def State.rewind (s : State) : State := { s with pc := s.pc - 2 }

/-- `skip`, when the condition holds (R8). -/
def State.skipIf (s : State) (b : Bool) : State := { s with pc := if b then s.pc + 2 else s.pc }

/-- The address the executing instruction was fetched from: `pc` has been advanced by 2 (R81, R209). -/
def State.instrAddress (s : State) : Word := s.pc - 2

/-! ## Taking a fatal fault

There is no vector, no handler, no saved register and no mode change (R204): the latch is written, and the cycle and
the tick end, because a core whose latch is set takes no further step (R205). No operation returns from a fault (R205,
R213); the way out is reset. -/

/-- `raise kind(info)` (R204): the fault latch records the kind, the address and the fetched word; nothing else
changes. The reset of the latch is `State.reboot` (Machine/Ports.lean). -/
def State.raise (s : State) (kind : FaultKind) (address : Word) (opcode : Option Word) :
    Host.Outcome State Fault Refusal :=
  .next { s with fault := some { kind := kind, address := address, opcode := opcode } }

/-- The code of a fatal fault kind (R200). The table's fifth code is a load result's: `LoadResult.code`
(Machine/Ports.lean). -/
def FaultKind.code : FaultKind → Nat
  | .stackUnderflow => 1
  | .stackOverflow => 2
  | .outOfBoundsMemoryAccess => 3
  | .badKeyIndex => 4

/-- The code the latch shows: 0 is "no fault" (R200). -/
def State.faultCode (s : State) : Nat :=
  match s.fault with
  | none => 0
  | some r => r.kind.code

/-! ## Events -/

/-- `emit e` (R8, R208). -/
def State.emit (s : State) (e : Event) : State := { s with events := s.events ++ [e] }

/-! ## The host's inputs -/

/-- The key state of the next tick (R93), and the ports after it was taken. -/
def Ports.nextKeys (p : Ports) : KeyState × Ports :=
  match p.keyInputs with
  | k :: ks => (k, { p with keyInputs := ks })
  | [] => (Config.freeKeys p.keyDraws, { p with keyDraws := p.keyDraws + 1 })

/-- The answer to the next `Rand()` (R94). -/
def Ports.randomByte (p : Ports) : Byte :=
  match p.randomInputs with
  | b :: _ => b
  | [] => Config.freeRandom p.randomDraws

/-- The ports after one `Rand()` (R94). -/
def Ports.afterRandom (p : Ports) : Ports :=
  match p.randomInputs with
  | _ :: bs => { p with randomInputs := bs }
  | [] => { p with randomDraws := p.randomDraws + 1 }

/-- `Key(k)`: logical key `k` is pressed in the current tick (R8, R93). -/
def State.key (s : State) (k : Nat) : Bool := s.keys.getLsbD k

/-- The order in which the key-wait gate scans the keys: ascending (`KEY_SCAN_ORDER`, R6, R83). -/
def keyScanOrder : List Reg := [0, 1, 2, 3, 4, 5, 6, 7, 8, 9, 10, 11, 12, 13, 14, 15]

/-- The first pressed key in scan order, if any key is pressed (R83, R85). -/
def State.firstKey (s : State) : Option Reg := keyScanOrder.find? fun k => s.key k.val

/-! ## The framebuffer -/

/-- A framebuffer with every pixel 0 (R160). -/
def Framebuffer.clear : Framebuffer := Vector.replicate 32 (Vector.replicate 64 false)

/-- The pixel at column `x`, row `y`; false outside the 64 by 32 grid (R23). -/
def Framebuffer.pixel (fb : Framebuffer) (x y : Nat) : Bool :=
  if h : x < 64 ∧ y < 32 then (fb[y]'h.2)[x]'h.1 else false

/-- XOR of the pixel at column `x`, row `y` with 1; nothing outside the grid (R161, R162 (e)). -/
def Framebuffer.flip (fb : Framebuffer) (x y : Nat) : Framebuffer :=
  if h : x < 64 ∧ y < 32 then
    fb.set y ((fb[y]'h.2).set x (!(fb[y]'h.2)[x]'h.1) h.1) h.2
  else fb

/-- One sprite bit at column `x`, row `y` (R161): a 0 does nothing; a 1 flips the pixel. The second component says
whether a lit pixel was turned off. -/
def Framebuffer.plot (fb : Framebuffer) (x y : Nat) (bit : Bool) : Framebuffer × Bool :=
  if bit then (Framebuffer.flip fb x y, Framebuffer.pixel fb x y) else (fb, false)

/-- The columns `c`, ..., 7 of one sprite row at row `y`; bit `7 - c` is drawn at column `x0 + c` (R161, R162 (a)).
The first argument is how many columns are left, `8 - c`. -/
def Framebuffer.drawRow (row : Byte) (x0 y : Nat) : Nat → Framebuffer → Framebuffer × Bool
  | 0, fb => (fb, false)
  | k + 1, fb =>
    let r := Framebuffer.plot fb (x0 + (7 - k)) y (row.getLsbD k)
    let q := Framebuffer.drawRow row x0 y k r.1
    (q.1, r.2 || q.2)

/-- A sprite with its left column at `x0` and its first row at `y0`, one byte a row (R161): the framebuffer after, and
whether any lit pixel was turned off. -/
def Framebuffer.drawSprite (x0 : Nat) : Nat → List Byte → Framebuffer → Framebuffer × Bool
  | _, [], fb => (fb, false)
  | y, row :: rows, fb =>
    let r := Framebuffer.drawRow row x0 y 8 fb
    let q := Framebuffer.drawSprite x0 (y + 1) rows r.1
    (q.1, r.2 || q.2)

end Sys2Proof.Machine
end

