-- ==== Sys2Proof/Machine/Flags.lean ====
section
/-! DEFINITION. Every flag computation of the machine (spec/10_state.md R13, spec/42_load_alu.md R120, R121). VF is the
only flag; a flag is written as exactly 0x00 or 0x01. -/

namespace Sys2Proof.Machine

/-- VF, general register 15 (R13). -/
def flagReg : Reg := 15

/-- The byte a flag is written as (R13). -/
def flagByte (b : Bool) : Byte := if b then 0x01 else 0x00

/-- Carry out of bit 7 of an addition (R120, R128). -/
def carry (a b : Byte) : Bool := a.toNat + b.toNat > 255

/-- NOT-borrow of `a - b`: 1 iff the minuend is at least the subtrahend (R120, R129). -/
def notBorrow (a b : Byte) : Bool := a.toNat ≥ b.toNat

/-- The bit a right shift by one shifts out (R130). -/
def bitOutRight (a : Byte) : Bool := a.getLsbD 0

/-- The bit a left shift by one shifts out (R132). -/
def bitOutLeft (a : Byte) : Bool := a.getLsbD 7

/-- `V[15] <- flag` (R13). -/
def State.setFlag (s : State) (b : Bool) : State := s.setReg flagReg (flagByte b)

/-- The end of a flag-defining instruction: first the result is written to `V[x]`, then the flag to VF (R121). -/
def State.writeResult (s : State) (x : Reg) (result : Byte) (flag : Bool) : State := (s.setReg x result).setFlag flag

end Sys2Proof.Machine
end

