-- ==== Sys2Proof/Machine/Operands.lean ====
section
/-! DEFINITION. The operand forms (spec/30_encoding.md R63) and the one addressing mode (spec/43_index_memory.md R140).
A register operand is `State.reg`; an immediate byte `NN` is used as it stands. -/

namespace Sys2Proof.Machine

/-- A 12-bit immediate address, zero-extended to 16 bits (R63). -/
def immAddress (nnn : Addr12) : Word := nnn.setWidth 16

/-- A register's byte, zero-extended to 16 bits (R63). -/
def regWord (w : Byte) : Word := w.setWidth 16

/-- The base of every data access: `I` as a natural number, so that `I + k` cannot wrap (R140). -/
def State.base (s : State) : Nat := s.i.toNat

/-- The last address of an I-relative access, `I + last`, is inside memory (R48, R140). -/
def State.inBounds (s : State) (last : Nat) : Bool := s.base + last ≤ 0xFFF

/-- The address an out-of-bounds I-relative access records: max(I, 0x1000), the lowest out-of-range address of the
request (R48, R203 (a)). -/
def State.outOfBoundsAddress (s : State) : Word := if s.i.toNat ≤ 0x1000 then 0x1000 else s.i

/-- The fault of an I-relative access outside memory, by the instruction with word `op` (R48, R203 (a)). -/
def State.raiseOutOfBounds (s : State) (op : Word) : Host.Outcome State Fault Refusal :=
  s.raise .outOfBoundsMemoryAccess s.outOfBoundsAddress (some op)

end Sys2Proof.Machine
end

