-- ==== Sys2Proof/Machine/Alu.lean ====
section
/-! DEFINITION. Load immediate, arithmetic, logic, shift and random: spec/42_load_alu.md R120 to R133. -/

namespace Sys2Proof.Machine

/-- `6XNN` LD Vx, NN (R122). -/
def execLdImm (x : Reg) (nn : Byte) (s : State) : Host.Outcome State Fault Refusal :=
  .next (s.setReg x nn)

/-- `7XNN` ADD Vx, NN (R123): modulo 256, no flag. -/
def execAddImm (x : Reg) (nn : Byte) (s : State) : Host.Outcome State Fault Refusal :=
  .next (s.setReg x (s.reg x + nn))

/-- `8XY0` LD Vx, Vy (R124). -/
def execLdReg (x y : Reg) (s : State) : Host.Outcome State Fault Refusal :=
  .next (s.setReg x (s.reg y))

/-- `8XY1` OR Vx, Vy (R125): no flag. -/
def execOrReg (x y : Reg) (s : State) : Host.Outcome State Fault Refusal :=
  .next (s.setReg x (s.reg x ||| s.reg y))

/-- `8XY2` AND Vx, Vy (R126): no flag. -/
def execAndReg (x y : Reg) (s : State) : Host.Outcome State Fault Refusal :=
  .next (s.setReg x (s.reg x &&& s.reg y))

/-- `8XY3` XOR Vx, Vy (R127): no flag. -/
def execXorReg (x y : Reg) (s : State) : Host.Outcome State Fault Refusal :=
  .next (s.setReg x (s.reg x ^^^ s.reg y))

/-- `8XY4` ADD Vx, Vy (R128): VF = carry. -/
def execAddReg (x y : Reg) (s : State) : Host.Outcome State Fault Refusal :=
  .next (s.writeResult x (s.reg x + s.reg y) (carry (s.reg x) (s.reg y)))

/-- `8XY5` SUB Vx, Vy (R129): VF = NOT-borrow of `V[x] - V[y]`. -/
def execSubReg (x y : Reg) (s : State) : Host.Outcome State Fault Refusal :=
  .next (s.writeResult x (s.reg x - s.reg y) (notBorrow (s.reg x) (s.reg y)))

/-- `8XY6` SHR Vx (R130): VF = old bit 0; `V[y]` is neither read nor written. -/
def execShr (x _y : Reg) (s : State) : Host.Outcome State Fault Refusal :=
  .next (s.writeResult x (s.reg x >>> 1) (bitOutRight (s.reg x)))

/-- `8XY7` SUBN Vx, Vy (R131): VF = NOT-borrow of `V[y] - V[x]`. -/
def execSubnReg (x y : Reg) (s : State) : Host.Outcome State Fault Refusal :=
  .next (s.writeResult x (s.reg y - s.reg x) (notBorrow (s.reg y) (s.reg x)))

/-- `8XYE` SHL Vx (R132): VF = old bit 7; `V[y]` is neither read nor written. -/
def execShl (x _y : Reg) (s : State) : Host.Outcome State Fault Refusal :=
  .next (s.writeResult x (s.reg x <<< 1) (bitOutLeft (s.reg x)))

/-- `CXNN` RND Vx, NN (R133): exactly one random byte is drawn, ANDed with `NN`. -/
def execRnd (x : Reg) (nn : Byte) (s : State) : Host.Outcome State Fault Refusal :=
  .next { s.setReg x (s.ports.randomByte &&& nn) with ports := s.ports.afterRandom }

end Sys2Proof.Machine
end

