-- ==== Sys2Proof/Syntax.lean ====
section
/-! DEFINITION. The 34 instructions of the opcode table (spec/30_encoding.md R66, spec/opcode_table.json), one
constructor per row, in the table's order. Bits an instruction ignores are kept in the term (`ign`, and `y` of the
shifts), so that a term and its word determine each other and a fault can record the word that was fetched (log 8). -/

namespace Sys2Proof

/-- An instruction; the comment of each constructor gives its pattern and its rule. -/
inductive Instr where
  /-- `0*E0` CLS (R160); `ign` is the don't-care nibble (R67). -/
  | cls (ign : Nibble)
  /-- `0*EE` RET (R101); `ign` is the don't-care nibble (R67). -/
  | ret (ign : Nibble)
  /-- `1NNN` JP NNN (R102). -/
  | jp (nnn : Addr12)
  /-- `2NNN` CALL NNN (R103). -/
  | call (nnn : Addr12)
  /-- `3XNN` SE Vx, NN (R104). -/
  | seImm (x : Reg) (nn : Byte)
  /-- `4XNN` SNE Vx, NN (R105). -/
  | sneImm (x : Reg) (nn : Byte)
  /-- `5XY0` SE Vx, Vy (R106). -/
  | seReg (x y : Reg)
  /-- `6XNN` LD Vx, NN (R122). -/
  | ldImm (x : Reg) (nn : Byte)
  /-- `7XNN` ADD Vx, NN (R123). -/
  | addImm (x : Reg) (nn : Byte)
  /-- `8XY0` LD Vx, Vy (R124). -/
  | ldReg (x y : Reg)
  /-- `8XY1` OR Vx, Vy (R125). -/
  | orReg (x y : Reg)
  /-- `8XY2` AND Vx, Vy (R126). -/
  | andReg (x y : Reg)
  /-- `8XY3` XOR Vx, Vy (R127). -/
  | xorReg (x y : Reg)
  /-- `8XY4` ADD Vx, Vy (R128). -/
  | addReg (x y : Reg)
  /-- `8XY5` SUB Vx, Vy (R129). -/
  | subReg (x y : Reg)
  /-- `8XY6` SHR Vx (R130); `y` is decoded and ignored (R71). -/
  | shr (x y : Reg)
  /-- `8XY7` SUBN Vx, Vy (R131). -/
  | subnReg (x y : Reg)
  /-- `8XYE` SHL Vx (R132); `y` is decoded and ignored (R71). -/
  | shl (x y : Reg)
  /-- `9XY0` SNE Vx, Vy (R107). -/
  | sneReg (x y : Reg)
  /-- `ANNN` LD I, NNN (R141). -/
  | ldI (nnn : Addr12)
  /-- `BNNN` JP V0, NNN (R108). -/
  | jpV0 (nnn : Addr12)
  /-- `CXNN` RND Vx, NN (R133). -/
  | rnd (x : Reg) (nn : Byte)
  /-- `DXYN` DRW Vx, Vy, N (R161); `n` is the number of sprite rows, 0 to 15 in a well-formed term. -/
  | drw (x y : Reg) (n : Nat)
  /-- `EX9E` SKP Vx (R170). -/
  | skp (x : Reg)
  /-- `EXA1` SKNP Vx (R171). -/
  | sknp (x : Reg)
  /-- `FX07` LD Vx, DT (R172). -/
  | ldVxDt (x : Reg)
  /-- `FX0A` LD Vx, K (R175). -/
  | ldVxK (x : Reg)
  /-- `FX15` LD DT, Vx (R173). -/
  | ldDtVx (x : Reg)
  /-- `FX18` LD ST, Vx (R174). -/
  | ldStVx (x : Reg)
  /-- `FX1E` ADD I, Vx (R142). -/
  | addI (x : Reg)
  /-- `FX29` LD F, Vx (R143). -/
  | ldF (x : Reg)
  /-- `FX33` LD B, Vx (R144). -/
  | ldB (x : Reg)
  /-- `FX55` LD [I], Vx (R145). -/
  | storeRegs (x : Reg)
  /-- `FX65` LD Vx, [I] (R146). -/
  | loadRegs (x : Reg)
deriving DecidableEq, Repr

end Sys2Proof
end

