-- ==== Sys2Proof/Decode.lean ====
section
/-! DEFINITION. Decoding and encoding: spec/30_encoding.md R60 to R71 and the rows of spec/opcode_table.json. -/

namespace Sys2Proof

/-! ## The fields of an opcode word (R61) -/

/-- `G`, bits 15:12: the primary group. -/
def fieldG (op : Word) : Nibble := op.extractLsb' 12 4
/-- Bits 11:8 as a nibble: the field `X`, or the don't-care nibble of group 0. -/
def fieldXNibble (op : Word) : Nibble := op.extractLsb' 8 4
/-- Bits 7:4 as a nibble: the field `Y`. -/
def fieldYNibble (op : Word) : Nibble := op.extractLsb' 4 4
/-- `N`, bits 3:0. -/
def fieldN (op : Word) : Nibble := op.extractLsb' 0 4
/-- `NN`, bits 7:0. -/
def fieldNN (op : Word) : Byte := op.extractLsb' 0 8
/-- `NNN`, bits 11:0. -/
def fieldNNN (op : Word) : Addr12 := op.extractLsb' 0 12
/-- `X` as a register index. -/
def fieldX (op : Word) : Reg := (fieldXNibble op).toFin
/-- `Y` as a register index. -/
def fieldY (op : Word) : Reg := (fieldYNibble op).toFin

/-! ## Decoding one word (R64) -/

/-- The register-to-register ALU group, selected by `N` (R64, R68 (a)); seven values of `N` select nothing (R70). -/
def decodeAlu (x y : Reg) (n : Nibble) : Option Instr :=
  match n with
  | 0x0#4 => some (.ldReg x y)
  | 0x1#4 => some (.orReg x y)
  | 0x2#4 => some (.andReg x y)
  | 0x3#4 => some (.xorReg x y)
  | 0x4#4 => some (.addReg x y)
  | 0x5#4 => some (.subReg x y)
  | 0x6#4 => some (.shr x y)
  | 0x7#4 => some (.subnReg x y)
  | 0xE#4 => some (.shl x y)
  | _ => none

/-- Group F, selected by `NN` (R64). -/
def decodeF (x : Reg) (nn : Byte) : Option Instr :=
  match nn with
  | 0x07#8 => some (.ldVxDt x)
  | 0x0A#8 => some (.ldVxK x)
  | 0x15#8 => some (.ldDtVx x)
  | 0x18#8 => some (.ldStVx x)
  | 0x1E#8 => some (.addI x)
  | 0x29#8 => some (.ldF x)
  | 0x33#8 => some (.ldB x)
  | 0x55#8 => some (.storeRegs x)
  | 0x65#8 => some (.loadRegs x)
  | _ => none

/-- The decoding procedure of R64: the instruction of an opcode word, none for an unknown opcode (R69). -/
def decodeWord (op : Word) : Option Instr :=
  match fieldG op with
  | 0x0#4 =>
    match fieldNN op with
    | 0xE0#8 => some (.cls (fieldXNibble op))
    | 0xEE#8 => some (.ret (fieldXNibble op))
    | _ => none
  | 0x1#4 => some (.jp (fieldNNN op))
  | 0x2#4 => some (.call (fieldNNN op))
  | 0x3#4 => some (.seImm (fieldX op) (fieldNN op))
  | 0x4#4 => some (.sneImm (fieldX op) (fieldNN op))
  | 0x5#4 => if fieldN op = 0x0#4 then some (.seReg (fieldX op) (fieldY op)) else none
  | 0x6#4 => some (.ldImm (fieldX op) (fieldNN op))
  | 0x7#4 => some (.addImm (fieldX op) (fieldNN op))
  | 0x8#4 => decodeAlu (fieldX op) (fieldY op) (fieldN op)
  | 0x9#4 => if fieldN op = 0x0#4 then some (.sneReg (fieldX op) (fieldY op)) else none
  | 0xA#4 => some (.ldI (fieldNNN op))
  | 0xB#4 => some (.jpV0 (fieldNNN op))
  | 0xC#4 => some (.rnd (fieldX op) (fieldNN op))
  | 0xD#4 => some (.drw (fieldX op) (fieldY op) (fieldN op).toNat)
  | 0xE#4 =>
    match fieldNN op with
    | 0x9E#8 => some (.skp (fieldX op))
    | 0xA1#8 => some (.sknp (fieldX op))
    | _ => none
  | 0xF#4 => decodeF (fieldX op) (fieldNN op)
  | _ => none

/-! ## Decoding bytes (R44, R60) -/

/-- Why bytes are not an instruction. -/
inductive DecodeError where
  /-- Fewer than the two bytes of an opcode. -/
  | truncated
  /-- The word matches no row of the opcode table (R69). -/
  | unknownOpcode (op : Word)
deriving DecidableEq, Repr

/-- The opcode word of two bytes: the byte at the lower address holds bits 15:8 (R44). -/
def opcodeOfBytes (hi lo : Byte) : Word := hi ++ lo

/-- The two bytes of an opcode word, as the hardware stores them: high byte first (R44). -/
def bytesOfOpcode (op : Word) : List Byte := [op.extractLsb' 8 8, op.extractLsb' 0 8]

/-- What the decoder reads at the head of a byte sequence: an instruction and the bytes after it, or a rejection by
name. -/
inductive Decoded where
  | instr (i : Instr) (rest : List Byte)
  | rejected (why : DecodeError)
deriving DecidableEq, Repr

/-- The instruction at the head of a byte sequence and the bytes after it, or the reason there is none. -/
def decode : List Byte → Decoded
  | hi :: lo :: rest =>
    match decodeWord (opcodeOfBytes hi lo) with
    | some i => .instr i rest
    | none => .rejected (.unknownOpcode (opcodeOfBytes hi lo))
  | [_] | [] => .rejected .truncated

/-- Bit 0 is the least significant bit of the first (and only) word; bits above `nbits` are 0. -/
def tableWord (nbits w : Nat) : Word := BitVec.ofNat 16 (w % 2 ^ nbits)

/-- The instruction the decoder reads from a word given as the opcode table numbers its bits: the word is laid out as
the hardware stores it, high byte first, and decoded from those bytes. -/
def decodeTableWord (nbits w : Nat) : Option Instr :=
  match decode (bytesOfOpcode (tableWord nbits w)) with
  | .instr i _ => some i
  | .rejected _ => none

/-! ## Encoding (R61, R62, R66) -/

/-- A register index as its 4-bit field. -/
def regNibble (r : Reg) : Nibble := BitVec.ofFin r

/-- Formats A (R62): group and address. -/
def encodeA (g : Nibble) (nnn : Addr12) : Word := g ++ nnn
/-- Format RI (R62): group, register, byte. Formats Z and R have this shape with a fixed byte. -/
def encodeRI (g x : Nibble) (nn : Byte) : Word := g ++ (x ++ nn : Addr12)
/-- Formats RR and RRN (R62): group, two registers, nibble. -/
def encodeRR (g : Nibble) (x y : Reg) (n : Nibble) : Word :=
  g ++ (regNibble x ++ (regNibble y ++ n : Byte) : Addr12)

/-- The word of an instruction: the row's `match` with its fields filled in (R61, R66). -/
def encode : Instr → Word
  | .cls ign => encodeRI 0x0 ign 0xE0
  | .ret ign => encodeRI 0x0 ign 0xEE
  | .jp nnn => encodeA 0x1 nnn
  | .call nnn => encodeA 0x2 nnn
  | .seImm x nn => encodeRI 0x3 (regNibble x) nn
  | .sneImm x nn => encodeRI 0x4 (regNibble x) nn
  | .seReg x y => encodeRR 0x5 x y 0x0
  | .ldImm x nn => encodeRI 0x6 (regNibble x) nn
  | .addImm x nn => encodeRI 0x7 (regNibble x) nn
  | .ldReg x y => encodeRR 0x8 x y 0x0
  | .orReg x y => encodeRR 0x8 x y 0x1
  | .andReg x y => encodeRR 0x8 x y 0x2
  | .xorReg x y => encodeRR 0x8 x y 0x3
  | .addReg x y => encodeRR 0x8 x y 0x4
  | .subReg x y => encodeRR 0x8 x y 0x5
  | .shr x y => encodeRR 0x8 x y 0x6
  | .subnReg x y => encodeRR 0x8 x y 0x7
  | .shl x y => encodeRR 0x8 x y 0xE
  | .sneReg x y => encodeRR 0x9 x y 0x0
  | .ldI nnn => encodeA 0xA nnn
  | .jpV0 nnn => encodeA 0xB nnn
  | .rnd x nn => encodeRI 0xC (regNibble x) nn
  | .drw x y n => encodeRR 0xD x y (BitVec.ofNat 4 n)
  | .skp x => encodeRI 0xE (regNibble x) 0x9E
  | .sknp x => encodeRI 0xE (regNibble x) 0xA1
  | .ldVxDt x => encodeRI 0xF (regNibble x) 0x07
  | .ldVxK x => encodeRI 0xF (regNibble x) 0x0A
  | .ldDtVx x => encodeRI 0xF (regNibble x) 0x15
  | .ldStVx x => encodeRI 0xF (regNibble x) 0x18
  | .addI x => encodeRI 0xF (regNibble x) 0x1E
  | .ldF x => encodeRI 0xF (regNibble x) 0x29
  | .ldB x => encodeRI 0xF (regNibble x) 0x33
  | .storeRegs x => encodeRI 0xF (regNibble x) 0x55
  | .loadRegs x => encodeRI 0xF (regNibble x) 0x65

/-- The bytes of an instruction in memory order (R44). -/
def encodeBytes (i : Instr) : List Byte := bytesOfOpcode (encode i)

/-! ## The opcode map (R66) -/

/-- One row of the opcode table: a word is the row's instruction exactly when `op &&& mask = value` (R66). -/
structure OpcodeRow where
  /-- The table's `match` column. -/
  value : Word
  /-- The table's `mask` column. -/
  mask : Word
deriving DecidableEq, Repr

/-- The word is an instruction of the row (R66). -/
def OpcodeRow.covers (r : OpcodeRow) (op : Word) : Bool := op &&& r.mask == r.value

/-- The row of an instruction, copied from the columns `match` and `mask` of R66. -/
def Instr.row : Instr → OpcodeRow
  | .cls _ => ⟨0x00E0, 0xF0FF⟩
  | .ret _ => ⟨0x00EE, 0xF0FF⟩
  | .jp _ => ⟨0x1000, 0xF000⟩
  | .call _ => ⟨0x2000, 0xF000⟩
  | .seImm _ _ => ⟨0x3000, 0xF000⟩
  | .sneImm _ _ => ⟨0x4000, 0xF000⟩
  | .seReg _ _ => ⟨0x5000, 0xF00F⟩
  | .ldImm _ _ => ⟨0x6000, 0xF000⟩
  | .addImm _ _ => ⟨0x7000, 0xF000⟩
  | .ldReg _ _ => ⟨0x8000, 0xF00F⟩
  | .orReg _ _ => ⟨0x8001, 0xF00F⟩
  | .andReg _ _ => ⟨0x8002, 0xF00F⟩
  | .xorReg _ _ => ⟨0x8003, 0xF00F⟩
  | .addReg _ _ => ⟨0x8004, 0xF00F⟩
  | .subReg _ _ => ⟨0x8005, 0xF00F⟩
  | .shr _ _ => ⟨0x8006, 0xF00F⟩
  | .subnReg _ _ => ⟨0x8007, 0xF00F⟩
  | .shl _ _ => ⟨0x800E, 0xF00F⟩
  | .sneReg _ _ => ⟨0x9000, 0xF00F⟩
  | .ldI _ => ⟨0xA000, 0xF000⟩
  | .jpV0 _ => ⟨0xB000, 0xF000⟩
  | .rnd _ _ => ⟨0xC000, 0xF000⟩
  | .drw _ _ _ => ⟨0xD000, 0xF000⟩
  | .skp _ => ⟨0xE09E, 0xF0FF⟩
  | .sknp _ => ⟨0xE0A1, 0xF0FF⟩
  | .ldVxDt _ => ⟨0xF007, 0xF0FF⟩
  | .ldVxK _ => ⟨0xF00A, 0xF0FF⟩
  | .ldDtVx _ => ⟨0xF015, 0xF0FF⟩
  | .ldStVx _ => ⟨0xF018, 0xF0FF⟩
  | .addI _ => ⟨0xF01E, 0xF0FF⟩
  | .ldF _ => ⟨0xF029, 0xF0FF⟩
  | .ldB _ => ⟨0xF033, 0xF0FF⟩
  | .storeRegs _ => ⟨0xF055, 0xF0FF⟩
  | .loadRegs _ => ⟨0xF065, 0xF0FF⟩

/-- The 34 rows of the opcode table in its order (R66). -/
def opcodeTable : List OpcodeRow :=
  [Instr.row (.cls 0), Instr.row (.ret 0), Instr.row (.jp 0), Instr.row (.call 0), Instr.row (.seImm 0 0),
   Instr.row (.sneImm 0 0), Instr.row (.seReg 0 0), Instr.row (.ldImm 0 0), Instr.row (.addImm 0 0)] ++
  [Instr.row (.ldReg 0 0), Instr.row (.orReg 0 0), Instr.row (.andReg 0 0), Instr.row (.xorReg 0 0),
   Instr.row (.addReg 0 0), Instr.row (.subReg 0 0), Instr.row (.shr 0 0), Instr.row (.subnReg 0 0),
   Instr.row (.shl 0 0)] ++
  [Instr.row (.sneReg 0 0), Instr.row (.ldI 0), Instr.row (.jpV0 0), Instr.row (.rnd 0 0), Instr.row (.drw 0 0 0),
   Instr.row (.skp 0), Instr.row (.sknp 0)] ++
  [Instr.row (.ldVxDt 0), Instr.row (.ldVxK 0), Instr.row (.ldDtVx 0), Instr.row (.ldStVx 0), Instr.row (.addI 0),
   Instr.row (.ldF 0), Instr.row (.ldB 0), Instr.row (.storeRegs 0), Instr.row (.loadRegs 0)]

end Sys2Proof
end

