-- ==== Sys2Proof/Machine/Control.lean ====
section
/-! DEFINITION. Control transfer: spec/41_control_flow.md R100 to R108. In every meaning `pc` has already been advanced:
it is the address of the next sequential instruction (R81). -/

namespace Sys2Proof.Machine

/-- `00EE` RET (R101): the most recent stack entry is popped into `pc` (R22); `StackUnderflow` on an empty stack
(R201). -/
def execRet (ign : Nibble) (s : State) : Host.Outcome State Fault Refusal :=
  match s.stack with
  | [] => s.raise .stackUnderflow s.instrAddress (some (encode (.ret ign)))
  | a :: rest => .next { s with pc := a, stack := rest }

/-- `1NNN` JP NNN (R102). -/
def execJp (nnn : Addr12) (s : State) : Host.Outcome State Fault Refusal :=
  .next { s with pc := immAddress nnn }

/-- `2NNN` CALL NNN (R103): the return address is pushed (R21); `StackOverflow` with 16 entries on the stack (R202). -/
def execCall (nnn : Addr12) (s : State) : Host.Outcome State Fault Refusal :=
  if s.sp < 16 then .next { s with pc := immAddress nnn, stack := s.pc :: s.stack }
  else s.raise .stackOverflow s.instrAddress (some (encode (.call nnn)))

/-- `3XNN` SE Vx, NN (R104). -/
def execSeImm (x : Reg) (nn : Byte) (s : State) : Host.Outcome State Fault Refusal :=
  .next (s.skipIf (s.reg x == nn))

/-- `4XNN` SNE Vx, NN (R105). -/
def execSneImm (x : Reg) (nn : Byte) (s : State) : Host.Outcome State Fault Refusal :=
  .next (s.skipIf (s.reg x != nn))

/-- `5XY0` SE Vx, Vy (R106). -/
def execSeReg (x y : Reg) (s : State) : Host.Outcome State Fault Refusal :=
  .next (s.skipIf (s.reg x == s.reg y))

/-- `9XY0` SNE Vx, Vy (R107). -/
def execSneReg (x y : Reg) (s : State) : Host.Outcome State Fault Refusal :=
  .next (s.skipIf (s.reg x != s.reg y))

/-- `BNNN` JP V0, NNN (R108): the sum is not reduced modulo 0x1000. -/
def execJpV0 (nnn : Addr12) (s : State) : Host.Outcome State Fault Refusal :=
  .next { s with pc := immAddress nnn + regWord (s.reg 0) }

end Sys2Proof.Machine
end

