-- ==== Sys2Proof/Machine/Display.lean ====
section
/-! DEFINITION. The display instructions: spec/44_display.md R160 to R162. -/

namespace Sys2Proof.Machine

/-- `00E0` CLS (R160): every pixel 0; VF unchanged. -/
def execCls (_ign : Nibble) (s : State) : Host.Outcome State Fault Refusal :=
  .next { s with fb := Framebuffer.clear }

/-- The sprite bytes are all inside memory: `N = 0`, which reads none, or `I + N - 1 ≤ 0xFFF` (R48, R161). -/
def State.spriteInBounds (s : State) (n : Nat) : Bool := n == 0 || s.inBounds (n - 1)

/-- The framebuffer and the collision after a draw: the coordinates are the raw register values, read before VF is
written (R161, R162 (c), (d)). -/
def State.drawn (s : State) (x y : Reg) (n : Nat) : Framebuffer × Bool :=
  Framebuffer.drawSprite (s.reg x).toNat (s.reg y).toNat (Memory.readBytes s.config s.mem s.base n) s.fb

/-- `DXYN` DRW Vx, Vy, N (R161): VF = collision, 0 for a zero-height sprite. -/
def execDrw (x y : Reg) (n : Nat) (s : State) : Host.Outcome State Fault Refusal :=
  if s.spriteInBounds n then .next { s.setFlag (s.drawn x y n).2 with fb := (s.drawn x y n).1 }
  else s.raiseOutOfBounds (encode (.drw x y n))

end Sys2Proof.Machine
end

