-- ==== Sys2Proof/Machine/IndexMemory.lean ====
section
/-! DEFINITION. The index register and memory instructions: spec/43_index_memory.md R140 to R146. Every data access
checks its last address before any effect (R48, R140); `I` is unchanged by the accesses. -/

namespace Sys2Proof.Machine

/-- `ANNN` LD I, NNN (R141). -/
def execLdI (nnn : Addr12) (s : State) : Host.Outcome State Fault Refusal :=
  .next { s with i := immAddress nnn }

/-- `FX1E` ADD I, Vx (R142): modulo 2^16, no flag. -/
def execAddI (x : Reg) (s : State) : Host.Outcome State Fault Refusal :=
  .next { s with i := s.i + regWord (s.reg x) }

/-- `FX29` LD F, Vx (R143): the whole 8-bit value times 5. -/
def execLdF (x : Reg) (s : State) : Host.Outcome State Fault Refusal :=
  .next { s with i := regWord (s.reg x) * 5 }

/-- The decimal digits of a byte, hundreds first (R144). -/
def bcdDigits (w : Byte) : List Byte :=
  [BitVec.ofNat 8 (w.toNat / 100), BitVec.ofNat 8 (w.toNat / 10 % 10), BitVec.ofNat 8 (w.toNat % 10)]

/-- `FX33` LD B, Vx (R144). -/
def execLdB (x : Reg) (s : State) : Host.Outcome State Fault Refusal :=
  if s.inBounds 2 then .next (s.storeBytes s.base (bcdDigits (s.reg x)))
  else s.raiseOutOfBounds (encode (.ldB x))

/-- `FX55` LD [I], Vx (R145): V0 to VX inclusive. -/
def execStoreRegs (x : Reg) (s : State) : Host.Outcome State Fault Refusal :=
  if s.inBounds x.val then .next (s.storeBytes s.base (s.regsUpTo x))
  else s.raiseOutOfBounds (encode (.storeRegs x))

/-- `FX65` LD Vx, [I] (R146): V0 to VX inclusive. -/
def execLoadRegs (x : Reg) (s : State) : Host.Outcome State Fault Refusal :=
  if s.inBounds x.val then .next { s with v := Registers.load s.config s.mem s.base (x.val + 1) s.v }
  else s.raiseOutOfBounds (encode (.loadRegs x))

end Sys2Proof.Machine
end

