-- ==== Sys2Proof/Machine/KeysTimers.lean ====
section
/-! DEFINITION. The key and timer instructions: spec/45_keys_timers.md R170 to R175. The key state is that of the
current tick, `State.keys`. -/

namespace Sys2Proof.Machine

/-- `EX9E` SKP Vx (R170): skips when the key is pressed; `BadKeyIndex` when `V[x]` is above 15 (R206). -/
def execSkp (x : Reg) (s : State) : Host.Outcome State Fault Refusal :=
  if (s.reg x).toNat ≤ 15 then .next (s.skipIf (s.key (s.reg x).toNat))
  else s.raise .badKeyIndex s.instrAddress (some (encode (.skp x)))

/-- `EXA1` SKNP Vx (R171): skips when the key is not pressed; `BadKeyIndex` when `V[x]` is above 15 (R206). -/
def execSknp (x : Reg) (s : State) : Host.Outcome State Fault Refusal :=
  if (s.reg x).toNat ≤ 15 then .next (s.skipIf (!s.key (s.reg x).toNat))
  else s.raise .badKeyIndex s.instrAddress (some (encode (.sknp x)))

/-- `FX07` LD Vx, DT (R172). -/
def execLdVxDt (x : Reg) (s : State) : Host.Outcome State Fault Refusal :=
  .next (s.setReg x s.dt)

/-- `FX0A` LD Vx, K (R175): the latch is set; the rest is the key-wait gate's (Machine/Cycle.lean). -/
def execLdVxK (x : Reg) (s : State) : Host.Outcome State Fault Refusal :=
  .next { s with kw := .waiting x }

/-- `FX15` LD DT, Vx (R173). -/
def execLdDtVx (x : Reg) (s : State) : Host.Outcome State Fault Refusal :=
  .next { s with dt := s.reg x }

/-- `FX18` LD ST, Vx (R174): no event, whatever is written. -/
def execLdStVx (x : Reg) (s : State) : Host.Outcome State Fault Refusal :=
  .next { s with st := s.reg x }

end Sys2Proof.Machine
end

