-- ==== Sys2Proof/Machine/Cycle.lean ====
section
/-! DEFINITION. One cycle, the key-wait gate and the timer step: spec/40_cycle_and_tick.md R81 to R88. -/

namespace Sys2Proof.Machine

/-- The fetch of the opcode at `pc` (R81): two bytes, high byte first, at any parity of `pc` (R44, R46); none when a
byte is outside memory (R49). -/
def State.fetch (s : State) : Option Word :=
  if s.pc.toNat ≤ 0xFFE then some (opcodeOfBytes (s.readByte s.pc.toNat) (s.readByte (s.pc.toNat + 1))) else none

/-- The address a fetch fault records: the lowest out-of-range address of the two (R49, R203 (b)). -/
def State.fetchFaultAddress (s : State) : Word := if s.pc.toNat ≤ 0x1000 then 0x1000 else s.pc

/-- The fault of a fetch outside memory: no word was fetched and `pc` is not advanced (R49, R203 (b)). -/
def State.raiseFetchFault (s : State) : Host.Outcome State Fault Refusal :=
  s.raise .outOfBoundsMemoryAccess s.fetchFaultAddress none

/-- The key-wait gate (R83 to R85), after the advance of `pc`: none is a stall; otherwise the state in which the
fetched opcode executes, with the key delivered if the core was waiting. -/
def State.keyGate (s : State) : Option State :=
  match s.kw with
  | .running => some s
  | .waiting r =>
    match s.firstKey with
    | none => none
    | some k => some { s.setReg r (BitVec.ofNat 8 k.val) with kw := .running }

/-- `Execute(op)` (R86): the decoded instruction, or for an unknown word the no-op with its event (R69, R209). -/
def executeWord (op : Word) (s : State) : Host.Outcome State Fault Refusal :=
  match decodeWord op with
  | some i => exec i s
  | none => .next (s.emit (.unknownOpcode op s.instrAddress))

/-- One cycle (R82), under the tick's key state `s.keys`, of a core that is not faulted. -/
def State.runCycle (s : State) : Host.Outcome State Fault Refusal :=
  match s.fetch with
  | none => s.raiseFetchFault
  | some op =>
    match s.advance.keyGate with
    | none => .next s.advance.rewind
    | some t => executeWord op t

/-- The timer step (R88): each nonzero timer counts down by 1; `Beep` when the sound timer reaches 0. -/
def State.timerStep (s : State) : State :=
  { s with
    dt := if s.dt = 0 then s.dt else s.dt - 1
    st := if s.st = 0 then s.st else s.st - 1
    events := if s.st = 1 then s.events ++ [.beep] else s.events }

/-- The first step of a tick takes the tick's key state from the host and empties the event list (R87, R93; log 2). -/
def State.beginTick (s : State) : State :=
  if s.cycle = 0 then { s with keys := s.ports.nextKeys.1, ports := s.ports.nextKeys.2, events := [] } else s

/-- The tick driver at the start of a cycle: the tick has begun and the cycle is counted (R87; log 1). -/
def State.startCycle (s : State) : State := { s.beginTick with cycle := s.cycle + 1 }

/-- The end of a tick, when its N cycles have run without a fault: the timer step (R87, R88; log 1). -/
def State.endTick (s : State) : State := { s.beginTick.timerStep with cycle := 0 }

end Sys2Proof.Machine
end

