-- ==== Sys2Proof/Machine/Step.lean ====
section
/-! DEFINITION. One step of the machine: a cycle, or the timer step that ends a tick (spec/40_cycle_and_tick.md R80,
R87; log 1). -/

namespace Sys2Proof.Machine

/-- A faulted core takes no step (R205). Otherwise: the next cycle of the tick while fewer than N have run, then the
timer step (R87). -/
def step (s : State) : Host.Outcome State Fault Refusal :=
  match s.fault with
  | some r => .fault (.coreFaulted r)
  | none => if s.cycle < s.config.cyclesPerTick then s.startCycle.runCycle else .next s.endTick

/-- `s` with the instruction of the opcode-table word `w` stored where the next step fetches it, and that step made the
cycle that fetches and executes it: `pc` inside memory, no fault, no key wait, a cycle of the tick due (log 9). -/
def State.withFetchWord (s : State) (nbits w : Nat) : State :=
  let pc : Word := if s.pc.toNat ≤ 0xFFE then s.pc else 0x0200
  { s with
    config := if s.config.cyclesPerTick = 0 then { s.config with cyclesPerTick := 1 } else s.config
    mem := Memory.writeBytes s.config s.mem pc.toNat (bytesOfOpcode (tableWord nbits w))
    pc := pc
    kw := .running
    fault := none
    cycle := if s.cycle < s.config.cyclesPerTick then s.cycle else 0 }

end Sys2Proof.Machine
end

