-- ==== Sys2Proof/Machine/Ports.lean ====
section
/-! DEFINITION. The host's operations: reset, load, tick, framebuffer read, and a run of steps (spec/40_cycle_and_tick.md R87, R91 to R97,
spec/70_reset_and_hazards.md R230, R232). -/

namespace Sys2Proof.Machine

/-- `Reset()` from any state, a faulted or a waiting one included (R230). The parameters and the host's inputs to come
are not state of the core and stay (log 24). -/
def State.reboot (s : State) : State := State.resetWith s.config s.ports

/-- The result of the load operation (R232). -/
inductive LoadResult where
  /-- The image was written. -/
  | ok (s : State)
  /-- The image does not fit; the state is left as it was (R207). -/
  | oversizedCartridge
  /-- Outside the operation's precondition: the core is not in the reset state (R232, log 20). -/
  | noMove
deriving DecidableEq, Repr

/-- The code of the error a load returns: `OversizedCartridge` has code 5, a load result only, which the FAULT latch never
shows (R200, R207); a load that writes its image, and a load that has no move, return none. -/
def LoadResult.code : LoadResult → Option Nat
  | .oversizedCartridge => some 5
  | .ok _ | .noMove => none

/-- The largest image that fits from 0x200 up (R232). -/
def maxImage : Nat := 3584

/-- `Load(image)` (R232): the image is written verbatim from 0x200 up, in the reset state only. -/
def State.load (s : State) (image : List Byte) : LoadResult :=
  if s = s.reboot then
    if image.length > maxImage then .oversizedCartridge else .ok (s.storeBytes 0x200 image)
  else .noMove

/-- The framebuffer as the host reads it: 2048 pixels, row-major (R95, R23). -/
def State.framebufferRead (s : State) : List Bool := (s.fb.toList.map fun row => row.toList).flatten

/-- What a tick returns to the host, with the state after it (R87, R96). -/
structure TickResult where
  state : State
  events : List Event
  ok : Bool
deriving DecidableEq, Repr

/-- The cycles of a tick, up to the first that faults (R87). -/
def State.runCycles : Nat → State → Host.Outcome State Fault Refusal
  | 0, s => .next s
  | n + 1, s =>
    match s.runCycle with
    | .next t => if t.fault = none then State.runCycles n t else .next t
    | .fault r => .fault r
    | .refused r => .refused r

/-- `Tick(keys)` (R87): N cycles under one key state, then the timer step; a faulting cycle ends it with no timer step
(R204); on a faulted core it changes nothing and returns failed with no events (R205). The outcome is a fault or a
refusal only if a cycle's is. -/
def State.tick (s : State) (keys : KeyState) : Host.Outcome TickResult Fault Refusal :=
  match s.fault with
  | some _ => .next { state := s, events := [], ok := false }
  | none =>
    match State.runCycles s.config.cyclesPerTick { s with keys := keys, events := [] } with
    | .next t =>
      if t.fault = none then .next { state := t.timerStep, events := t.timerStep.events, ok := true }
      else .next { state := t, events := t.events, ok := false }
    | .fault r => .fault r
    | .refused r => .refused r

/-! ## The order of the host's operations (R233) -/

/-- Where the host stands in the boot order (R232, R233). -/
inductive BootPhase where
  /-- Reset, with no load and no tick since. -/
  | fresh
  /-- One load returned ok; ticks may follow. -/
  | loaded
  /-- A load was rejected: "VM does not start executing" (R232). -/
  | rejected
deriving DecidableEq, Repr

/-- The core with the host's place in the boot order. The place is the host's, not state of the core (log 20). -/
structure Session where
  phase : BootPhase
  core : State
deriving DecidableEq, Repr

/-- The operations by which the host changes the core (R97); the framebuffer read changes nothing. -/
inductive HostOp where
  | reset
  | load (image : List Byte)
  | tick (keys : KeyState)
deriving DecidableEq, Repr

/-- What an operation returns to the host (R96, R230, R232). -/
inductive HostReply where
  | resetDone
  | loadOk
  | oversizedCartridge
  | ticked (events : List Event) (ok : Bool)
deriving DecidableEq, Repr

/-- The code of the error a reply carries: that of a rejected load (R200). A failed tick carries none of its own; its
fault's code is the one the latch shows, `State.faultCode`. -/
def HostReply.code : HostReply → Option Nat
  | .oversizedCartridge => LoadResult.oversizedCartridge.code
  | .resetDone | .loadOk | .ticked _ _ => none

/-- A reset, from any place (R230). -/
def Session.reset (s : Session) : Session := { phase := .fresh, core := s.core.reboot }

/-- A load: once, on a fresh core (R232). -/
def Session.load (s : Session) (image : List Byte) : Option (Session × HostReply) :=
  match s.phase with
  | .fresh =>
    match s.core.load image with
    | .ok t => some ({ phase := .loaded, core := t }, .loadOk)
    | .oversizedCartridge => some ({ s with phase := .rejected }, .oversizedCartridge)
    | .noMove => none
  | .loaded | .rejected => none

/-- A tick: any number of times, after a load that returned ok (R233). -/
def Session.tick (s : Session) (keys : KeyState) : Option (Session × HostReply) :=
  match s.phase with
  | .loaded =>
    match s.core.tick keys with
    | .next r => some ({ s with core := r.state }, .ticked r.events r.ok)
    | .fault _ => none
    | .refused _ => none
  | .fresh | .rejected => none

/-- One host operation in the only legal order (R233); none where the spec gives it no move. -/
def Session.apply (s : Session) : HostOp → Option (Session × HostReply)
  | .reset => some (s.reset, .resetDone)
  | .load image => s.load image
  | .tick keys => s.tick keys

/-- `k` steps, stopping at the first that does not answer a next state: `Host.Core.run` of this machine, on its own
types. -/
def run : Nat → State → Host.Outcome State Fault Refusal
  | 0, s => .next s
  | k + 1, s =>
    match step s with
    | .next t => run k t
    | .fault r => .fault r
    | .refused r => .refused r

end Sys2Proof.Machine
end

