-- ==== Sys2Proof/Safety.lean ====
section
/-! DEFINITION. The words the claims use: the invariant of every reachable state (spec/10_state.md R35), what a
fault-free state is (spec/60_exceptions.md R205), and which instruction writes or reads which element of the state
(spec/10_state.md R14 to R30). -/

namespace Sys2Proof.Machine

/-- No fatal fault has been taken (R205). -/
def State.faultFree (s : State) : Prop := s.fault = none

/-- What holds in every reachable state (R18, R35, R200, R210, R212), as far as the types do not say it already. -/
structure State.Inv (s : State) : Prop where
  /-- Memory is in its canonical form, all addresses below 4096 (R35, R40). -/
  mem_wf : Memory.wf s.config s.mem = true
  /-- `pc` is in 0 to 0x10FE (R18, R35). -/
  pc_le : s.pc.toNat ≤ 0x10FE
  /-- `SP` is in 0 to 16 (R19, R35). -/
  sp_le : s.sp ≤ 16
  /-- Every return address is a `pc` that a fetch has advanced: at most 0xFFE + 2 (R81, R103). -/
  stack_le : ∀ a ∈ s.stack, a.toNat ≤ 0x1000
  /-- At most N cycles of a tick are run (R87). -/
  cycle_le : s.cycle ≤ s.config.cyclesPerTick
  /-- A beep is emitted by the timer step alone: it stands in the list only between ticks, of a tick that did not
  fault (R210, R212). -/
  beep_last : Event.beep ∈ s.events → s.cycle = 0 ∧ s.fault = none
  /-- At most one beep a tick (R210). -/
  beep_once : s.events.count Event.beep ≤ 1
  /-- What a fault records: an out-of-bounds fault an address above 0xFFF, every other kind the fetched word (R201 to
  R203, R206). -/
  fault_record : ∀ r, s.fault = some r →
    if r.kind = .outOfBoundsMemoryAccess then 0x1000 ≤ r.address.toNat else r.opcode.isSome = true

/-- The sprite with rows `rows` and its top left corner at column `x0`, row `y0` has a set bit at column `x`, row `y`:
row `r = y - y0` exists, `c = x - x0` is at most 7, and bit `7 - c` of row `r` is 1 (R161, R162 (a)). -/
def spriteBit (rows : List Byte) (x0 y0 x y : Nat) : Bool :=
  decide (x0 ≤ x ∧ x ≤ x0 + 7 ∧ y0 ≤ y) && (rows.getD (y - y0) 0).getLsbD (7 - (x - x0))

end Sys2Proof.Machine

namespace Sys2Proof

/-! ## What an instruction may write, read and raise -/

/-- The general registers an instruction may write, VF included where it defines a flag (R12 to R14). -/
def Instr.writesReg (i : Instr) (r : Reg) : Bool :=
  match i with
  | .ldImm x _ | .addImm x _ | .ldReg x _ | .orReg x _ | .andReg x _ | .xorReg x _ | .rnd x _ | .ldVxDt x => r == x
  | .addReg x _ | .subReg x _ | .shr x _ | .subnReg x _ | .shl x _ => r == x || r == 15
  | .drw _ _ _ => r == 15
  | .loadRegs x => r ≤ x
  | .cls _ | .ret _ | .jp _ | .call _ | .seImm _ _ | .sneImm _ _ | .seReg _ _ | .sneReg _ _ | .ldI _ | .jpV0 _
  | .skp _ | .sknp _ | .ldVxK _ | .ldDtVx _ | .ldStVx _ | .addI _ | .ldF _ | .ldB _ | .storeRegs _ => false

/-- The six instructions that define a flag (R13). -/
def Instr.definesFlag : Instr → Bool
  | .addReg _ _ | .subReg _ _ | .shr _ _ | .subnReg _ _ | .shl _ _ | .drw _ _ _ => true
  | .cls _ | .ret _ | .jp _ | .call _ | .seImm _ _ | .sneImm _ _ | .seReg _ _ | .ldImm _ _ | .addImm _ _
  | .ldReg _ _ | .orReg _ _ | .andReg _ _ | .xorReg _ _ | .sneReg _ _ | .ldI _ | .jpV0 _ | .rnd _ _ | .skp _
  | .sknp _ | .ldVxDt _ | .ldVxK _ | .ldDtVx _ | .ldStVx _ | .addI _ | .ldF _ | .ldB _ | .storeRegs _
  | .loadRegs _ => false

/-- The instructions that write `pc` beyond the automatic advance (R17). -/
def Instr.writesPc : Instr → Bool
  | .ret _ | .jp _ | .call _ | .seImm _ _ | .sneImm _ _ | .seReg _ _ | .sneReg _ _ | .jpV0 _ | .skp _ | .sknp _ => true
  | .cls _ | .ldImm _ _ | .addImm _ _ | .ldReg _ _ | .orReg _ _ | .andReg _ _ | .xorReg _ _ | .addReg _ _
  | .subReg _ _ | .shr _ _ | .subnReg _ _ | .shl _ _ | .ldI _ | .rnd _ _ | .drw _ _ _ | .ldVxDt _ | .ldVxK _
  | .ldDtVx _ | .ldStVx _ | .addI _ | .ldF _ | .ldB _ | .storeRegs _ | .loadRegs _ => false

/-- The instructions that write `I` (R15). -/
def Instr.writesI : Instr → Bool
  | .ldI _ | .addI _ | .ldF _ => true
  | .cls _ | .ret _ | .jp _ | .call _ | .seImm _ _ | .sneImm _ _ | .seReg _ _ | .ldImm _ _ | .addImm _ _
  | .ldReg _ _ | .orReg _ _ | .andReg _ _ | .xorReg _ _ | .addReg _ _ | .subReg _ _ | .shr _ _ | .subnReg _ _
  | .shl _ _ | .sneReg _ _ | .jpV0 _ | .rnd _ _ | .drw _ _ _ | .skp _ | .sknp _ | .ldVxDt _ | .ldVxK _
  | .ldDtVx _ | .ldStVx _ | .ldB _ | .storeRegs _ | .loadRegs _ => false

/-- The instructions that write memory (R50). -/
def Instr.writesMem : Instr → Bool
  | .ldB _ | .storeRegs _ => true
  | .cls _ | .ret _ | .jp _ | .call _ | .seImm _ _ | .sneImm _ _ | .seReg _ _ | .ldImm _ _ | .addImm _ _
  | .ldReg _ _ | .orReg _ _ | .andReg _ _ | .xorReg _ _ | .addReg _ _ | .subReg _ _ | .shr _ _ | .subnReg _ _
  | .shl _ _ | .sneReg _ _ | .ldI _ | .jpV0 _ | .rnd _ _ | .drw _ _ _ | .skp _ | .sknp _ | .ldVxDt _ | .ldVxK _
  | .ldDtVx _ | .ldStVx _ | .addI _ | .ldF _ | .loadRegs _ => false

/-- The instructions that reach the call stack (R20, R109). -/
def Instr.usesStack : Instr → Bool
  | .ret _ | .call _ => true
  | .cls _ | .jp _ | .seImm _ _ | .sneImm _ _ | .seReg _ _ | .ldImm _ _ | .addImm _ _ | .ldReg _ _ | .orReg _ _
  | .andReg _ _ | .xorReg _ _ | .addReg _ _ | .subReg _ _ | .shr _ _ | .subnReg _ _ | .shl _ _ | .sneReg _ _
  | .ldI _ | .jpV0 _ | .rnd _ _ | .drw _ _ _ | .skp _ | .sknp _ | .ldVxDt _ | .ldVxK _ | .ldDtVx _ | .ldStVx _
  | .addI _ | .ldF _ | .ldB _ | .storeRegs _ | .loadRegs _ => false

/-- The instructions that write the framebuffer (R24). -/
def Instr.writesFb : Instr → Bool
  | .cls _ | .drw _ _ _ => true
  | .ret _ | .jp _ | .call _ | .seImm _ _ | .sneImm _ _ | .seReg _ _ | .ldImm _ _ | .addImm _ _ | .ldReg _ _
  | .orReg _ _ | .andReg _ _ | .xorReg _ _ | .addReg _ _ | .subReg _ _ | .shr _ _ | .subnReg _ _ | .shl _ _
  | .sneReg _ _ | .ldI _ | .jpV0 _ | .rnd _ _ | .skp _ | .sknp _ | .ldVxDt _ | .ldVxK _ | .ldDtVx _ | .ldStVx _
  | .addI _ | .ldF _ | .ldB _ | .storeRegs _ | .loadRegs _ => false

/-- The instructions that read the key state (R93). -/
def Instr.readsKeys : Instr → Bool
  | .skp _ | .sknp _ => true
  | .cls _ | .ret _ | .jp _ | .call _ | .seImm _ _ | .sneImm _ _ | .seReg _ _ | .ldImm _ _ | .addImm _ _
  | .ldReg _ _ | .orReg _ _ | .andReg _ _ | .xorReg _ _ | .addReg _ _ | .subReg _ _ | .shr _ _ | .subnReg _ _
  | .shl _ _ | .sneReg _ _ | .ldI _ | .jpV0 _ | .rnd _ _ | .drw _ _ _ | .ldVxDt _ | .ldVxK _ | .ldDtVx _
  | .ldStVx _ | .addI _ | .ldF _ | .ldB _ | .storeRegs _ | .loadRegs _ => false

/-- The general registers an instruction reads: those its X and Y fields name as operands, V0 to VX for the bulk store,
V0 for `BNNN` (R12, R14). The ignored Y of `8XY6` and `8XYE` is not among them (R71). -/
def Instr.readsReg (i : Instr) (r : Reg) : Bool :=
  match i with
  | .seImm x _ | .sneImm x _ | .addImm x _ | .shr x _ | .shl x _ | .skp x | .sknp x | .ldDtVx x | .ldStVx x | .addI x
  | .ldF x | .ldB x => r == x
  | .seReg x y | .sneReg x y | .orReg x y | .andReg x y | .xorReg x y | .addReg x y | .subReg x y | .subnReg x y
  | .drw x y _ => r == x || r == y
  | .ldReg _ y => r == y
  | .jpV0 _ => r == 0
  | .storeRegs x => r ≤ x
  | .cls _ | .ret _ | .jp _ | .call _ | .ldImm _ _ | .ldI _ | .rnd _ _ | .ldVxDt _ | .ldVxK _ | .loadRegs _ => false

/-- The instructions that read `I`; a zero-height draw does not (R15, R161). -/
def Instr.readsI : Instr → Bool
  | .addI _ | .ldB _ | .storeRegs _ | .loadRegs _ => true
  | .drw _ _ n => n != 0
  | .cls _ | .ret _ | .jp _ | .call _ | .seImm _ _ | .sneImm _ _ | .seReg _ _ | .ldImm _ _ | .addImm _ _
  | .ldReg _ _ | .orReg _ _ | .andReg _ _ | .xorReg _ _ | .addReg _ _ | .subReg _ _ | .shr _ _ | .subnReg _ _
  | .shl _ _ | .sneReg _ _ | .ldI _ | .jpV0 _ | .rnd _ _ | .skp _ | .sknp _ | .ldVxDt _ | .ldVxK _ | .ldDtVx _
  | .ldStVx _ | .ldF _ => false

/-- The instructions that read memory (R50); a zero-height draw reads none (R161). -/
def Instr.readsMem : Instr → Bool
  | .loadRegs _ => true
  | .drw _ _ n => n != 0
  | .cls _ | .ret _ | .jp _ | .call _ | .seImm _ _ | .sneImm _ _ | .seReg _ _ | .ldImm _ _ | .addImm _ _
  | .ldReg _ _ | .orReg _ _ | .andReg _ _ | .xorReg _ _ | .addReg _ _ | .subReg _ _ | .shr _ _ | .subnReg _ _
  | .shl _ _ | .sneReg _ _ | .ldI _ | .jpV0 _ | .rnd _ _ | .skp _ | .sknp _ | .ldVxDt _ | .ldVxK _ | .ldDtVx _
  | .ldStVx _ | .addI _ | .ldF _ | .ldB _ | .storeRegs _ => false

/-- The kind of fatal fault an instruction can raise, none for an instruction that raises nothing (R200, R212). -/
def Instr.faultKind : Instr → Option Machine.FaultKind
  | .ret _ => some .stackUnderflow
  | .call _ => some .stackOverflow
  | .skp _ | .sknp _ => some .badKeyIndex
  | .drw _ _ _ | .ldB _ | .storeRegs _ | .loadRegs _ => some .outOfBoundsMemoryAccess
  | .cls _ | .jp _ | .seImm _ _ | .sneImm _ _ | .seReg _ _ | .ldImm _ _ | .addImm _ _ | .ldReg _ _ | .orReg _ _
  | .andReg _ _ | .xorReg _ _ | .addReg _ _ | .subReg _ _ | .shr _ _ | .subnReg _ _ | .shl _ _ | .sneReg _ _
  | .ldI _ | .jpV0 _ | .rnd _ _ | .ldVxDt _ | .ldVxK _ | .ldDtVx _ | .ldStVx _ | .addI _ | .ldF _ => none

end Sys2Proof
end

