-- ==== Sys2Proof/Certificates/Slice0/Obligations.lean ====
section
/-! DEFINITION. The statements for the provers. `exec i s` is the instruction's own effect on a state whose `pc` has
already been advanced past it (spec/40_cycle_and_tick.md R81), so that "pc as otherwise" is `s.pc`. Where a statement
rests on a decision (D<n>) or a general-knowledge passage (K<n>) of the spec, its docstring says so. -/

open Sys2Proof Sys2Proof.Machine

/-! ## Words the statements use -/

/-- `t` agrees with `s` on every component of the state but the general registers. -/
def Sys2Proof.Claims.OnlyRegs (s t : State) : Prop := t = { s with v := t.v }

/-- `t` agrees with `s` on every component of the state but `pc`. -/
def Sys2Proof.Claims.OnlyPc (s t : State) : Prop := t = { s with pc := t.pc }

/-- `t` agrees with `s` on every component of the state but `I`. -/
def Sys2Proof.Claims.OnlyI (s t : State) : Prop := t = { s with i := t.i }

/-- `t` agrees with `s` on every component of the state but memory. -/
def Sys2Proof.Claims.OnlyMem (s t : State) : Prop := t = { s with mem := t.mem }

/-- Every byte of memory outside the addresses `lo` to `hi` reads as before. -/
def Sys2Proof.Claims.SameOutside (s t : State) (lo hi : Nat) : Prop :=
  ∀ a, a < lo ∨ hi < a → t.readByte a = s.readByte a

/-- `i` is a word of the table's row with this `match` and `mask`, and that word decodes to `i` (R66). -/
def Sys2Proof.Claims.HasRow (i : Instr) (value mask : Word) : Prop :=
  encode i &&& mask = value ∧ decodeWord (encode i) = some i

/-- The instruction completes in every state; it writes `w s` to `V[x]` and leaves every other register and every
other component of the state as it was. -/
def Sys2Proof.Claims.SetsRegister (i : Instr) (x : Reg) (w : State → Nat) : Prop :=
  ∀ s : State, ∃ t, exec i s = .next t ∧ Claims.OnlyRegs s t ∧ (t.reg x).toNat = w s ∧
    ∀ r, r ≠ x → t.reg r = s.reg r

/-- The instruction completes in every state; it writes `w s` to `V[x]` and then the flag to VF, as exactly 0 or 1, so
that with X = 0xF VF holds the flag; every other register and every other component of the state is as it was. -/
def Sys2Proof.Claims.SetsRegisterAndFlag (i : Instr) (x : Reg) (w : State → Nat) (flag : State → Bool) : Prop :=
  ∀ s : State, ∃ t, exec i s = .next t ∧ Claims.OnlyRegs s t ∧ (x ≠ 15 → (t.reg x).toNat = w s) ∧
    t.reg 15 = (if flag s then 1 else 0) ∧ ∀ r, r ≠ x → r ≠ 15 → t.reg r = s.reg r

/-- The instruction completes in every state; it steps over the next opcode when the condition holds, and changes
nothing but `pc`. -/
def Sys2Proof.Claims.SkipsWhen (i : Instr) (c : State → Prop) : Prop :=
  ∀ s : State, ∃ t, exec i s = .next t ∧ Claims.OnlyPc s t ∧
    (c s → t.pc.toNat = (s.pc.toNat + 2) % 65536) ∧ (¬c s → t.pc = s.pc)

/-- The instruction, in state `s`, takes the fatal fault of kind `k` with this recorded address and its own word, and
makes none of its own changes (R204, D3, D4). -/
def Sys2Proof.Claims.TakesFault (i : Instr) (s : State) (k : FaultKind) (addr : Nat) : Prop :=
  ∃ a : Word, a.toNat = addr ∧ exec i s = .next { s with fault := some ⟨k, a, some (encode i)⟩ }

/-- The address the executing instruction was fetched from: 2 below the advanced `pc` (R81). -/
def Sys2Proof.Claims.fetchedFrom (s : State) : Nat := (s.pc.toNat + 65534) % 65536

/-! ## Encoding -/

/-- Words written out from the patterns of R66, at least one of every family, decode to the instruction they stand
for (R61 to R67). The word 07EE rests on the spec's decision D26 (log 13), the pairing of the ALU and key words on its D25
(log 12). -/
def Obligations.SpecWordsDecodeAsWritten : Prop :=
  decode [0x00, 0xE0] = .instr (.cls 0) [] ∧ decode [0x07, 0xEE] = .instr (.ret 7) [] ∧
  decode [0x12, 0x0C] = .instr (.jp 0x20C) [] ∧ decode [0x22, 0x10] = .instr (.call 0x210) [] ∧
  decode [0x3A, 0x42] = .instr (.seImm 0xA 0x42) [] ∧ decode [0x91, 0x20] = .instr (.sneReg 1 2) [] ∧
  decode [0xB3, 0x00] = .instr (.jpV0 0x300) [] ∧ decode [0x60, 0x05] = .instr (.ldImm 0 5) [] ∧
  decode [0x8F, 0x14] = .instr (.addReg 0xF 1) [] ∧ decode [0x82, 0xE6] = .instr (.shr 2 0xE) [] ∧
  decode [0xC3, 0x0F] = .instr (.rnd 3 0x0F) [] ∧ decode [0xA2, 0xF0] = .instr (.ldI 0x2F0) [] ∧
  decode [0xF2, 0x55] = .instr (.storeRegs 2) [] ∧ decode [0xD0, 0x15] = .instr (.drw 0 1 5) [] ∧
  decode [0xE2, 0x9E] = .instr (.skp 2) [] ∧ decode [0xF1, 0x0A] = .instr (.ldVxK 1) [] ∧
  decode [0x50, 0x11] = .rejected (.unknownOpcode 0x5011) ∧ decode [0x60] = .rejected .truncated

/-- Decode and encode agree on every well-formed instruction, whatever bytes follow it: no operand bit is dropped. -/
def Obligations.DecodeOfEncodedBytes : Prop :=
  ∀ (i : Instr) (rest : List Byte), i.wellFormed = true → decode (encodeBytes i ++ rest) = .instr i rest

/-- A word that decodes is the encoding of the instruction it decodes to, which is well-formed: the ignored bits are
not lost either (R67, R71). That the syntax keeps them is the model's (log 8); which words decode rests on the spec's
decisions D25 and D26 (log 12, 13). -/
def Obligations.EncodeOfDecodedWord : Prop :=
  ∀ (op : Word) (i : Instr), decodeWord op = some i → encode i = op ∧ i.wellFormed = true

/-- R66: the table has 34 rows, and a word is the instruction of a row if and only if `(op AND mask) = match`. The masks
of the first two rows are the spec's decision D26 (log 13), the pairing of the ALU and skip rows with their operations its
D25 (log 12). -/
def Obligations.DecodedWordMatchesItsRow : Prop :=
  opcodeTable.length = 34 ∧
  ∀ (op : Word) (r : OpcodeRow), r ∈ opcodeTable →
    (op &&& r.mask = r.value ↔ ∃ i, decodeWord op = some i ∧ i.row = r)

/-- R64, R70: the unknown words, group by group; every other word is an instruction. The groups with no unknown word do
not appear. Group 0 rests on the spec's decision D26 (log 13), group 8 on its D25 (log 12). -/
def Obligations.UnknownWordsGroupByGroup : Prop :=
  ∀ op : Word,
    let g := op.toNat / 4096
    let nn := op.toNat % 256
    let n := op.toNat % 16
    decodeWord op = none ↔
      (g = 0 ∧ nn ≠ 0xE0 ∧ nn ≠ 0xEE) ∨ ((g = 5 ∨ g = 9) ∧ n ≠ 0) ∨
      (g = 8 ∧ 8 ≤ n ∧ n ≠ 0xE) ∨ (g = 0xE ∧ nn ≠ 0x9E ∧ nn ≠ 0xA1) ∨
      (g = 0xF ∧ nn ∉ [0x07, 0x0A, 0x15, 0x18, 0x1E, 0x29, 0x33, 0x55, 0x65])

/-! ## Reset and load -/

/-- R231: the source's check of the fresh machine, for every value of the parameters and inputs. -/
def Obligations.FreshMachinePassesSourceCheck : Prop :=
  ∀ (c : Config) (p : Ports),
    let s := State.resetWith c p
    s.pc = 0x200 ∧ (∀ r, s.reg r = 0) ∧ s.i = 0 ∧ s.stack = [] ∧
    (∀ x y, x < 64 → y < 32 → Framebuffer.pixel s.fb x y = false) ∧
    s.readByte 0 = 0xF0 ∧ s.readByte 1 = 0x90 ∧ s.readByte 2 = 0x90 ∧ s.readByte 3 = 0x90 ∧ s.readByte 4 = 0xF0

/-- R34, R230: reset from any state, a faulted or a waiting one included, gives every element its reset value: font,
then zeros, registers, timers, stack, framebuffer and latches cleared. That it applies from any state is the spec's
decision D34, and the fault latch its D3; that parameters and host inputs stay is the model's (log 24). -/
def Obligations.ResetFromAnyState : Prop :=
  ∀ s : State,
    let t := s.reboot
    (∀ a, (h : a < 75) → t.readByte (5 + a) = s.config.fontTail[a]) ∧
    (∀ a, 80 ≤ a → a < 4096 → t.readByte a = 0) ∧ t.readByte 0 = 0xF0 ∧ t.readByte 4 = 0xF0 ∧
    (∀ a, 1 ≤ a → a ≤ 3 → t.readByte a = 0x90) ∧ Memory.wf t.config t.mem = true ∧
    (∀ r, t.reg r = 0) ∧ t.i = 0 ∧ t.pc = 0x200 ∧ t.sp = 0 ∧ t.fb = Framebuffer.clear ∧
    t.dt = 0 ∧ t.st = 0 ∧ t.kw = .running ∧ t.fault = none ∧ t.events = [] ∧
    t.config = s.config ∧ t.ports = s.ports

/-- The state after reset satisfies the invariant, whatever the parameters and inputs; the invariant's clause on `cycle`
is about the model's own field (log 1). -/
def Obligations.ResetSatisfiesInvariant : Prop :=
  (∀ (c : Config) (p : Ports), (State.resetWith c p).Inv) ∧ State.reset.Inv

/-- R232: an image of at most 3584 bytes is written verbatim from 0x200 up and changes nothing else; a longer one is
rejected with the state left as it was; outside the reset state there is no load. The last clause, and "unmodified",
are the spec's decision D20 (log 20). -/
def Obligations.LoadWritesImageVerbatim : Prop :=
  ∀ (s : State) (image : List Byte),
    (s = s.reboot → image.length ≤ 3584 →
      ∃ t, s.load image = .ok t ∧ Claims.OnlyMem s t ∧ Memory.wf t.config t.mem = true ∧
        (∀ k, (h : k < image.length) → t.readByte (0x200 + k) = image[k]) ∧
        ∀ a, a < 0x200 ∨ 0x200 + image.length ≤ a → t.readByte a = s.readByte a) ∧
    (s = s.reboot → 3584 < image.length → s.load image = .oversizedCartridge) ∧
    (s ≠ s.reboot → s.load image = .noMove)

/-- R40: memory is what its 4096 bytes read as. Two memories in canonical form that read the same everywhere are the
same data. -/
def Obligations.MemoryIsItsBytes : Prop :=
  ∀ (c : Config) (m m' : Memory), Memory.wf c m = true → Memory.wf c m' = true →
    (∀ a, a < 4096 → Memory.read c m a = Memory.read c m' a) → m = m'

/-! ## Control transfer -/

/-- R101, R201: RET pops the most recent return address into `pc`, as it is; on an empty stack it takes
`StackUnderflow`, recording its own address and word. That all 16 words `0*EE` return is the spec's decision D26 (R67;
log 13); the record is its decisions D3, D4 (log 19). -/
def Obligations.ReturnPopsOrUnderflows : Prop :=
  ∀ (ign : Nibble) (s : State),
    Claims.HasRow (.ret ign) 0x00EE 0xF0FF ∧
    (∀ a rest, s.stack = a :: rest → exec (.ret ign) s = .next { s with pc := a, stack := rest }) ∧
    (s.sp = 0 → Claims.TakesFault (.ret ign) s .stackUnderflow (Claims.fetchedFrom s))

/-- R103, R202: CALL pushes the full 16-bit return address and jumps, with at most 15 entries on the stack; with 16 it
takes `StackOverflow`, recording its own address and word. The record is the spec's decisions D3, D4. -/
def Obligations.CallPushesOrOverflows : Prop :=
  ∀ (nnn : Addr12) (s : State),
    Claims.HasRow (.call nnn) 0x2000 0xF000 ∧
    (s.sp < 16 → ∃ t, exec (.call nnn) s = .next t ∧ t = { s with pc := t.pc, stack := s.pc :: s.stack } ∧
      t.pc.toNat = nnn.toNat ∧ t.sp = s.sp + 1) ∧
    (s.sp = 16 → Claims.TakesFault (.call nnn) s .stackOverflow (Claims.fetchedFrom s))

/-- R102: JP assigns the absolute address, of any parity and anywhere in the 12-bit range, and changes nothing else. -/
def Obligations.JumpAssignsTarget : Prop :=
  ∀ (nnn : Addr12) (s : State),
    Claims.HasRow (.jp nnn) 0x1000 0xF000 ∧
    ∃ t, exec (.jp nnn) s = .next t ∧ Claims.OnlyPc s t ∧ t.pc.toNat = nnn.toNat

/-- R108: BNNN assigns NNN + V0, not reduced modulo 0x1000 (the spec's decision D33), and changes nothing else. -/
def Obligations.JumpWithOffsetAddsV0 : Prop :=
  ∀ (nnn : Addr12) (s : State),
    Claims.HasRow (.jpV0 nnn) 0xB000 0xF000 ∧
    ∃ t, exec (.jpV0 nnn) s = .next t ∧ Claims.OnlyPc s t ∧ t.pc.toNat = nnn.toNat + (s.reg 0).toNat

/-- R104 to R107: the four conditional skips. Which of each pair skips on equality is the spec's reading of the source's
list with general knowledge (K3, D25; log 12). -/
def Obligations.ConditionalSkips : Prop :=
  ∀ (x y : Reg) (nn : Byte),
    (Claims.HasRow (.seImm x nn) 0x3000 0xF000 ∧ Claims.SkipsWhen (.seImm x nn) fun s => s.reg x = nn) ∧
    (Claims.HasRow (.sneImm x nn) 0x4000 0xF000 ∧ Claims.SkipsWhen (.sneImm x nn) fun s => s.reg x ≠ nn) ∧
    (Claims.HasRow (.seReg x y) 0x5000 0xF00F ∧ Claims.SkipsWhen (.seReg x y) fun s => s.reg x = s.reg y) ∧
    (Claims.HasRow (.sneReg x y) 0x9000 0xF00F ∧ Claims.SkipsWhen (.sneReg x y) fun s => s.reg x ≠ s.reg y)

/-- Calls one after the other, to the addresses of the list. -/
def Sys2Proof.Claims.execCalls : List Addr12 → State → Host.Outcome State Fault Refusal
  | [], s => .next s
  | a :: as, s =>
    match exec (.call a) s with
    | .next t => if t.fault = none then Claims.execCalls as t else .next t
    | o => o

/-- `n` returns one after the other. -/
def Sys2Proof.Claims.execReturns : Nat → State → Host.Outcome State Fault Refusal
  | 0, s => .next s
  | n + 1, s =>
    match exec (.ret 0) s with
    | .next t => if t.fault = none then Claims.execReturns n t else .next t
    | o => o

/-- R21, R101, R103: nested calls that fit on the stack, followed by as many returns, come back to where they started
with the stack, and everything else, as it was. -/
def Obligations.CallsThenReturnsComeBack : Prop :=
  ∀ (targets : List Addr12) (s : State), s.fault = none → s.sp + targets.length ≤ 16 →
    ∃ t, Claims.execCalls targets s = .next t ∧ t.sp = s.sp + targets.length ∧
      Claims.execReturns targets.length t = .next s

/-! ## Load, arithmetic, logic, shift, random -/

/-- R122 to R124: load immediate, add immediate (modulo 256, VF unaffected unless it is the destination), assign. That
secondary nibble 0 is assign is the spec's decision D25 (R68 (a); log 12, PRESUMED), and that assign leaves VF alone its
decision D6 (R14; log 15). -/
def Obligations.ImmediateAndAssignResults : Prop :=
  ∀ (x y : Reg) (nn : Byte),
    (Claims.HasRow (.ldImm x nn) 0x6000 0xF000 ∧ Claims.SetsRegister (.ldImm x nn) x fun _ => nn.toNat) ∧
    (Claims.HasRow (.addImm x nn) 0x7000 0xF000 ∧
      Claims.SetsRegister (.addImm x nn) x fun s => ((s.reg x).toNat + nn.toNat) % 256) ∧
    (Claims.HasRow (.ldReg x y) 0x8000 0xF00F ∧ Claims.SetsRegister (.ldReg x y) x fun s => (s.reg y).toNat)

/-- The instruction completes in every state; bit `k` of `V[x]` becomes `f` of the old bits `k` of `V[x]` and `V[y]`,
and nothing else changes. -/
def Sys2Proof.Claims.CombinesBits (i : Instr) (x y : Reg) (f : Bool → Bool → Bool) : Prop :=
  ∀ s : State, ∃ t, exec i s = .next t ∧ Claims.OnlyRegs s t ∧ (∀ r, r ≠ x → t.reg r = s.reg r) ∧
    ∀ k, k < 8 → (t.reg x).getLsbD k = f ((s.reg x).getLsbD k) ((s.reg y).getLsbD k)

/-- R125 to R127: OR, AND, XOR bit by bit. That secondary nibbles 1, 2, 3 are OR, AND, XOR is the spec's decision D25
(R68 (a); log 12, PRESUMED); that VF is unchanged (unless it is the destination) is its decision D6 (R14; log 15). -/
def Obligations.LogicCombinesBits : Prop :=
  ∀ x y : Reg,
    (Claims.HasRow (.orReg x y) 0x8001 0xF00F ∧ Claims.CombinesBits (.orReg x y) x y or) ∧
    (Claims.HasRow (.andReg x y) 0x8002 0xF00F ∧ Claims.CombinesBits (.andReg x y) x y and) ∧
    (Claims.HasRow (.xorReg x y) 0x8003 0xF00F ∧ Claims.CombinesBits (.xorReg x y) x y xor)

/-- R128, R129, R131: the results, modulo 256, and the flags, carry or NOT-borrow, from the values before the
instruction. That VF holds the flag when X = 0xF is the spec's decision D5 (log 15). The secondary nibbles 4, 5, 7 are
the source's own (R68 (a)). -/
def Obligations.AddSubtractResultsAndFlags : Prop :=
  ∀ x y : Reg,
    (Claims.HasRow (.addReg x y) 0x8004 0xF00F ∧
      Claims.SetsRegisterAndFlag (.addReg x y) x (fun s => ((s.reg x).toNat + (s.reg y).toNat) % 256)
        fun s => (s.reg x).toNat + (s.reg y).toNat > 255) ∧
    (Claims.HasRow (.subReg x y) 0x8005 0xF00F ∧
      Claims.SetsRegisterAndFlag (.subReg x y) x (fun s => ((s.reg x).toNat + 256 - (s.reg y).toNat) % 256)
        fun s => (s.reg x).toNat ≥ (s.reg y).toNat) ∧
    (Claims.HasRow (.subnReg x y) 0x8007 0xF00F ∧
      Claims.SetsRegisterAndFlag (.subnReg x y) x (fun s => ((s.reg y).toNat + 256 - (s.reg x).toNat) % 256)
        fun s => (s.reg y).toNat ≥ (s.reg x).toNat)

/-- R130, R132: shifts of VX by one, the bit shifted out in VF; VY is ignored. That secondary nibble 6 is the right shift
and 0xE the left is the spec's decision D25 (R68 (a); log 12, PRESUMED); that VF holds the flag when X = 0xF is its
decision D5 (log 15). -/
def Obligations.ShiftResultsAndFlags : Prop :=
  ∀ x y : Reg,
    (Claims.HasRow (.shr x y) 0x8006 0xF00F ∧
      Claims.SetsRegisterAndFlag (.shr x y) x (fun s => (s.reg x).toNat / 2) fun s => (s.reg x).toNat % 2 = 1) ∧
    (Claims.HasRow (.shl x y) 0x800E 0xF00F ∧
      Claims.SetsRegisterAndFlag (.shl x y) x (fun s => (s.reg x).toNat * 2 % 256)
        fun s => (s.reg x).toNat ≥ 128)

/-- R133, R94: RND draws exactly one byte from the host, also with NN = 0 (the spec's decision D28), ANDs it with NN and
writes nothing else. Where the byte comes from is the model's choice (log 3): the head of the list of answers the host has
fixed, so that every byte can be drawn, and with none fixed a free value of which nothing is known; `ports` is advanced by
that one draw. -/
def Obligations.RandomDrawsOneByte : Prop :=
  ∀ (x : Reg) (nn : Byte) (s : State),
    Claims.HasRow (.rnd x nn) 0xC000 0xF000 ∧
    (∃ (b : Byte) (t : State), exec (.rnd x nn) s = .next t ∧ t = { s with v := t.v, ports := t.ports } ∧
      t.ports = s.ports.afterRandom ∧ t.reg x = b &&& nn ∧ ∀ r, r ≠ x → t.reg r = s.reg r) ∧
    ∀ (b : Byte) (bs : List Byte), s.ports.randomInputs = b :: bs →
      ∃ t, exec (.rnd x nn) s = .next t ∧ t.reg x = b &&& nn ∧
        t.ports = { s.ports with randomInputs := bs }

/-! ## Index register and memory -/

/-- R141: LD I, NNN writes the 12-bit value, zero-extended, and changes nothing else. -/
def Obligations.LoadIndexImmediate : Prop :=
  ∀ (nnn : Addr12) (s : State),
    Claims.HasRow (.ldI nnn) 0xA000 0xF000 ∧
    ∃ t, exec (.ldI nnn) s = .next t ∧ Claims.OnlyI s t ∧ t.i.toNat = nnn.toNat

/-- R142, R143: ADD I, Vx modulo 2^16 with no flag and no fault (the spec's decision D11); LD F, Vx is the whole 8-bit
value times 5 (its decision D12). Nothing else changes. -/
def Obligations.IndexAddAndGlyphAddress : Prop :=
  ∀ (x : Reg) (s : State),
    (Claims.HasRow (.addI x) 0xF01E 0xF0FF ∧
      ∃ t, exec (.addI x) s = .next t ∧ Claims.OnlyI s t ∧
        t.i.toNat = (s.i.toNat + (s.reg x).toNat) % 65536) ∧
    (Claims.HasRow (.ldF x) 0xF029 0xF0FF ∧
      ∃ t, exec (.ldF x) s = .next t ∧ Claims.OnlyI s t ∧ t.i.toNat = (s.reg x).toNat * 5)

/-- R144, R48: LD B stores the three decimal digits of VX at I, I+1, I+2 and changes no other byte and nothing else;
when I + 2 is outside memory it takes the fault before any byte is written (the spec's decisions D10, D3, D4). -/
def Obligations.BcdStoresDigits : Prop :=
  ∀ (x : Reg) (s : State), Memory.wf s.config s.mem = true →
    Claims.HasRow (.ldB x) 0xF033 0xF0FF ∧
    (s.i.toNat + 2 ≤ 0xFFF →
      ∃ t, exec (.ldB x) s = .next t ∧ Claims.OnlyMem s t ∧
        (t.readByte s.i.toNat).toNat = (s.reg x).toNat / 100 ∧
        (t.readByte (s.i.toNat + 1)).toNat = (s.reg x).toNat / 10 % 10 ∧
        (t.readByte (s.i.toNat + 2)).toNat = (s.reg x).toNat % 10 ∧
        Claims.SameOutside s t s.i.toNat (s.i.toNat + 2)) ∧
    (0xFFF < s.i.toNat + 2 →
      Claims.TakesFault (.ldB x) s .outOfBoundsMemoryAccess (max s.i.toNat 0x1000))

/-- R145, R48: the bulk store puts V0 to VX, inclusive, at I upward, changes no other byte and nothing else, I included;
when I + X is outside memory it takes the fault before any byte is written (the spec's decisions D10, D3, D4). -/
def Obligations.BulkStoreWritesRegisters : Prop :=
  ∀ (x : Reg) (s : State), Memory.wf s.config s.mem = true →
    Claims.HasRow (.storeRegs x) 0xF055 0xF0FF ∧
    (s.i.toNat + x.val ≤ 0xFFF →
      ∃ t, exec (.storeRegs x) s = .next t ∧ Claims.OnlyMem s t ∧
        (∀ r : Reg, r ≤ x → t.readByte (s.i.toNat + r.val) = s.reg r) ∧
        Claims.SameOutside s t s.i.toNat (s.i.toNat + x.val)) ∧
    (0xFFF < s.i.toNat + x.val →
      Claims.TakesFault (.storeRegs x) s .outOfBoundsMemoryAccess (max s.i.toNat 0x1000))

/-- R146, R48: the bulk load puts the bytes from I upward into V0 to VX, inclusive, and changes nothing else, I and
memory included; when I + X is outside memory it takes the fault before any register is written (the spec's decisions
D10, D3, D4). -/
def Obligations.BulkLoadReadsRegisters : Prop :=
  ∀ (x : Reg) (s : State),
    Claims.HasRow (.loadRegs x) 0xF065 0xF0FF ∧
    (s.i.toNat + x.val ≤ 0xFFF →
      ∃ t, exec (.loadRegs x) s = .next t ∧ Claims.OnlyRegs s t ∧
        (∀ r : Reg, r ≤ x → t.reg r = s.readByte (s.i.toNat + r.val)) ∧
        ∀ r : Reg, x < r → t.reg r = s.reg r) ∧
    (0xFFF < s.i.toNat + x.val →
      Claims.TakesFault (.loadRegs x) s .outOfBoundsMemoryAccess (max s.i.toNat 0x1000))

/-- R145, R146: a bulk load undoes nothing and loses nothing: after a bulk store of V0 to VX, whatever has happened to
the registers, a bulk load with the same X and I brings V0 to VX back. -/
def Obligations.BulkLoadRestoresStoredRegisters : Prop :=
  ∀ (x : Reg) (s : State) (v' : Registers), Memory.wf s.config s.mem = true → s.i.toNat + x.val ≤ 0xFFF →
    ∃ t u, exec (.storeRegs x) s = .next t ∧ exec (.loadRegs x) { t with v := v' } = .next u ∧
      ∀ r : Reg, u.reg r = if r ≤ x then s.reg r else v'[r]

/-- The byte at address `a` after the bytes `ws` were stored from I upward: the stored one in that range, as before
outside it. -/
def Sys2Proof.Claims.byteAfterStore (s : State) (ws : List Byte) (a : Nat) : Byte :=
  if s.i.toNat ≤ a then ws.getD (a - s.i.toNat) (s.readByte a) else s.readByte a

/-- `t` is a state whose fetch reads, byte by byte, what stands at `pc` of `s` after the bytes `ws` were stored from I
upward. -/
def Sys2Proof.Claims.FetchSeesStore (s t : State) (ws : List Byte) : Prop :=
  ∃ op, t.fetch = some op ∧
    op.toNat = (Claims.byteAfterStore s ws s.pc.toNat).toNat * 256 +
      (Claims.byteAfterStore s ws (s.pc.toNat + 1)).toNat

/-- R54, R55, R44: after a bulk store or a BCD store that completes, the very next fetch sees each byte of the word on its
own: a byte inside the range stored to is the stored one, a byte outside it is as it was, whether the store covers both
bytes at `pc`, one of them or none. -/
def Obligations.StoreSeenByNextFetch : Prop :=
  ∀ (x : Reg) (s : State), Memory.wf s.config s.mem = true → s.pc.toNat ≤ 0xFFE →
    (s.i.toNat + x.val ≤ 0xFFF →
      ∃ t, exec (.storeRegs x) s = .next t ∧ Claims.FetchSeesStore s t (s.v.toList.take (x.val + 1))) ∧
    (s.i.toNat + 2 ≤ 0xFFF →
      ∃ t, exec (.ldB x) s = .next t ∧
        Claims.FetchSeesStore s t (([(s.reg x).toNat / 100, (s.reg x).toNat / 10 % 10, (s.reg x).toNat % 10]).map
          (BitVec.ofNat 8)))

/-! ## Display -/

/-- R160: CLS clears every pixel and changes nothing else, VF included. That all 16 words `0*E0` are CLS is the spec's
decision D26 (R67; log 13). -/
def Obligations.ClearScreenClearsAllPixels : Prop :=
  ∀ (ign : Nibble) (s : State),
    Claims.HasRow (.cls ign) 0x00E0 0xF0FF ∧
    ∃ t, exec (.cls ign) s = .next t ∧ t = { s with fb := t.fb } ∧
      ∀ x y, x < 64 → y < 32 → Framebuffer.pixel t.fb x y = false

/-- The bytes of the sprite a draw reads: N bytes from I upward. -/
def Sys2Proof.Claims.spriteRows (s : State) (n : Nat) : List Byte :=
  (List.range n).map fun r => s.readByte (s.i.toNat + r)

/-- R161, R162: a draw whose bytes are inside memory XORs the sprite into the grid pixel by pixel, at the raw register
values, with nothing wrapped and what is outside the grid dropped; VF is 1 exactly when some lit pixel is turned off;
no other register and nothing else changes. A draw outside memory takes the fault before VF or any pixel changes. The
coordinates' order and width, and the check of the whole range first, are the spec's decisions D7, D8, D9. -/
def Obligations.DrawXorsSpriteAndReportsCollision : Prop :=
  ∀ (x y : Reg) (n : Nat) (s : State), n ≤ 15 →
    let bit := spriteBit (Claims.spriteRows s n) (s.reg x).toNat (s.reg y).toNat
    Claims.HasRow (.drw x y n) 0xD000 0xF000 ∧
    (n = 0 ∨ s.i.toNat + n - 1 ≤ 0xFFF →
      ∃ t, exec (.drw x y n) s = .next t ∧ t = { s with fb := t.fb, v := t.v } ∧
        (∀ px py, px < 64 → py < 32 →
          Framebuffer.pixel t.fb px py = (Framebuffer.pixel s.fb px py ^^ bit px py)) ∧
        ((∃ px py, px < 64 ∧ py < 32 ∧ bit px py = true ∧ Framebuffer.pixel s.fb px py = true) → t.reg 15 = 1) ∧
        (¬(∃ px py, px < 64 ∧ py < 32 ∧ bit px py = true ∧ Framebuffer.pixel s.fb px py = true) → t.reg 15 = 0) ∧
        ∀ r, r ≠ 15 → t.reg r = s.reg r) ∧
    (n ≠ 0 → 0xFFF < s.i.toNat + n - 1 →
      Claims.TakesFault (.drw x y n) s .outOfBoundsMemoryAccess (max s.i.toNat 0x1000))

/-- R161, R163: a zero-height draw resets VF to 0, whatever I holds, and changes nothing else, the framebuffer included;
and the same sprite drawn twice in the same place restores the framebuffer (the coordinates kept in registers other than
VF, which the first draw writes) and leaves everything but VF as it was. The second draw reports a collision exactly when
a set bit of the sprite in the grid fell on a pixel that was dark before the first: on a clear screen, when the sprite has
a set bit in the grid. (R163's general sentence omits "dark"; R161, from which it says it follows, does not give it
otherwise: log 16.) -/
def Obligations.DrawTwiceRestores : Prop :=
  (∀ (x y : Reg) (s : State), ∃ t, exec (.drw x y 0) s = .next t ∧ Claims.OnlyRegs s t ∧ t.fb = s.fb ∧
    t.reg 15 = 0 ∧ ∀ r, r ≠ 15 → t.reg r = s.reg r) ∧
  ∀ (x y : Reg) (n : Nat) (s : State), x ≠ 15 → y ≠ 15 → n = 0 ∨ s.i.toNat + n - 1 ≤ 0xFFF →
    ∃ t u, exec (.drw x y n) s = .next t ∧ exec (.drw x y n) t = .next u ∧ Claims.OnlyRegs s u ∧ u.fb = s.fb ∧
      (∀ r, r ≠ 15 → u.reg r = s.reg r) ∧ (u.reg 15 = 0 ∨ u.reg 15 = 1) ∧
      (u.reg 15 = 1 ↔ ∃ px py, px < 64 ∧ py < 32 ∧
        spriteBit (Claims.spriteRows s n) (s.reg x).toNat (s.reg y).toNat px py = true ∧
        Framebuffer.pixel s.fb px py = false)

/-- R23, R95: the host reads 2048 pixels in row-major order, pixel (x, y) as element y × 64 + x. -/
def Obligations.FramebufferReadIsRowMajor : Prop :=
  ∀ s : State, s.framebufferRead.length = 2048 ∧
    ∀ x y, x < 64 → y < 32 → s.framebufferRead[y * 64 + x]? = some (Framebuffer.pixel s.fb x y)

/-! ## Keys and timers -/

/-- R170, R171, R206: the key skips, on the tick's key state, for VX in 0 to 15; above 15 they take `BadKeyIndex`. Which
of the two skips on a pressed key is general knowledge (K4, D25; log 12); the fault is the spec's decision D13. -/
def Obligations.KeySkips : Prop :=
  ∀ (x : Reg) (s : State),
    Claims.HasRow (.skp x) 0xE09E 0xF0FF ∧ Claims.HasRow (.sknp x) 0xE0A1 0xF0FF ∧
    ((s.reg x).toNat ≤ 15 →
      ∃ t u, exec (.skp x) s = .next t ∧ exec (.sknp x) s = .next u ∧ Claims.OnlyPc s t ∧ Claims.OnlyPc s u ∧
        (s.keys.getLsbD (s.reg x).toNat = true → t.pc.toNat = (s.pc.toNat + 2) % 65536 ∧ u.pc = s.pc) ∧
        (s.keys.getLsbD (s.reg x).toNat = false → u.pc.toNat = (s.pc.toNat + 2) % 65536 ∧ t.pc = s.pc)) ∧
    (15 < (s.reg x).toNat →
      Claims.TakesFault (.skp x) s .badKeyIndex (Claims.fetchedFrom s) ∧
      Claims.TakesFault (.sknp x) s .badKeyIndex (Claims.fetchedFrom s))

/-- R172, R173: LD Vx, DT copies the delay timer and leaves it; LD DT, Vx writes it; neither changes anything else. -/
def Obligations.DelayTimerTransfers : Prop :=
  ∀ x : Reg,
    (Claims.HasRow (.ldVxDt x) 0xF007 0xF0FF ∧ Claims.SetsRegister (.ldVxDt x) x fun s => s.dt.toNat) ∧
    (Claims.HasRow (.ldDtVx x) 0xF015 0xF0FF ∧
      ∀ s : State, ∃ t, exec (.ldDtVx x) s = .next t ∧ t = { s with dt := t.dt } ∧ t.dt = s.reg x)

/-- R174, R175: LD ST, Vx writes the sound timer and emits nothing, whatever it writes (the spec's decision D17); LD Vx,
K sets the key-wait latch and does no more: `pc`, V[x] and the keys are untouched by its own cycle (its decision
D16). -/
def Obligations.SoundTimerAndKeyWaitLatch : Prop :=
  ∀ (x : Reg) (s : State),
    (Claims.HasRow (.ldStVx x) 0xF018 0xF0FF ∧
      ∃ t, exec (.ldStVx x) s = .next t ∧ t = { s with st := t.st } ∧ t.st = s.reg x ∧ t.events = s.events) ∧
    (Claims.HasRow (.ldVxK x) 0xF00A 0xF0FF ∧
      ∃ t, exec (.ldVxK x) s = .next t ∧ t = { s with kw := t.kw } ∧ t.kw = .waiting x)

/-! ## Rules over all instructions -/

/-- R12, R13, R14: an instruction changes no general register but its destinations. VF is a destination of the six
instructions that define a flag, and of any instruction that writes VX when X = 0xF (and of FX65 with X = 0xF); no other
changes it. After one of the six, unless it faults, VF is 0 or 1. That OR, AND, XOR and assign leave VF alone is the
spec's decision D6 (R14; log 15). -/
def Obligations.OnlyDestinationRegistersChange : Prop :=
  ∀ (i : Instr) (s t : State), exec i s = .next t →
    (∀ r, i.writesReg r = false → t.reg r = s.reg r) ∧
    (i.definesFlag = true → s.fault = none → t.fault = none → t.reg 15 = 0 ∨ t.reg 15 = 1)

/-- R15, R17, R20, R24, R25, R26, R27, R50, R94, R200, R212: each element of the spec's state other than the general
registers is changed by no instruction but those the rules name for it, the fault latch by none but those that have a
fault; no instruction emits an event (R208 to R210; that FX18 emits none is the spec's decision D17, log 25). That the
parameters stand in State and are not written is the model's (log 4); the key state, the tick's position, the event list
and the host's ports as fields are the model's own (log 1, 2, 3, 6). -/
def Obligations.OnlyNamedInstructionsChangeEachElement : Prop :=
  ∀ (i : Instr) (s t : State), exec i s = .next t →
    (i.writesPc = false → t.pc = s.pc) ∧ (i.writesI = false → t.i = s.i) ∧
    (i.writesMem = false → t.mem = s.mem) ∧ (i.usesStack = false → t.stack = s.stack) ∧
    (i.writesFb = false → t.fb = s.fb) ∧ ((∀ x, i ≠ .ldDtVx x) → t.dt = s.dt) ∧
    ((∀ x, i ≠ .ldStVx x) → t.st = s.st) ∧ ((∀ x, i ≠ .ldVxK x) → t.kw = s.kw) ∧
    ((∀ x nn, i ≠ .rnd x nn) → t.ports = s.ports) ∧ (i.faultKind = none → t.fault = s.fault) ∧
    t.config = s.config ∧ t.keys = s.keys ∧ t.cycle = s.cycle ∧ t.events = s.events

/-- R200, R204, R212: faults are precise. When an instruction sets the fault latch, the kind is the one kind that
instruction can raise, the fetched word is recorded, and nothing but the latch has changed (the latch and its record are
the spec's decisions D3, D4, the kind `BadKeyIndex` its D13, the check before any effect its D9, D10: log 14, 17, 19). -/
def Obligations.FaultsArePrecise : Prop :=
  ∀ (i : Instr) (s t : State) (r : FaultRecord), s.fault = none → exec i s = .next t → t.fault = some r →
    i.faultKind = some r.kind ∧ r.opcode = some (encode i) ∧ t = { s with fault := some r }

/-- A change `put` of the state, made before the instruction that leads from `s` to `t`, is there after it, and nothing
else differs. -/
def Sys2Proof.Claims.Carries (i : Instr) (s t : State) (put : State → State) : Prop := exec i (put s) = .next (put t)

/-- A change `put` of the state, made before the instruction that leads from `s` to `t`, is overwritten by it: the state
after it is `t` all the same. -/
def Sys2Proof.Claims.Overwrites (i : Instr) (s t : State) (put : State → State) : Prop := exec i (put s) = .next t

/-- R12, R14, R15, R17, R20, R24, R25, R27, R50, R71, R93, R94: what an instruction does not read does not influence it, for
every element of the state. An element it neither reads nor writes is carried over; an element it writes without reading
is overwritten. Of the general registers it reads only its operands (the flag's and the destination's old values only where
they are operands); one it may write without reading it is overwritten, or, if the instruction takes a fault, carried over.
Only the ten instructions that write the program counter may depend on it, the two jumps among them not; the old memory
influences a store in memory alone. No instruction reads the fault latch: one that takes a fault overwrites it, any other
carries it over. No instruction reads N, nor the count of cycles, nor the event list, which are fields of the model's own
making (log 1, 4, 6); those that touch no memory read none of the parameters. -/
def Obligations.UnreadStateHasNoInfluence : Prop :=
  ∀ (i : Instr) (s t : State), exec i s = .next t →
    (∀ (r : Reg) (w : Byte), i.readsReg r = false →
      (i.writesReg r = false → Claims.Carries i s t fun u => u.setReg r w) ∧
      (i.writesReg r = true → s.fault = none →
        (t.fault = none → Claims.Overwrites i s t fun u => u.setReg r w) ∧
        (t.fault ≠ none → Claims.Carries i s t fun u => u.setReg r w))) ∧
    (∀ i' : Word, i.readsI = false →
      (i.writesI = false → Claims.Carries i s t fun u => { u with i := i' }) ∧
      (i.writesI = true → Claims.Overwrites i s t fun u => { u with i := i' })) ∧
    (∀ pc' : Word,
      (i.writesPc = false → Claims.Carries i s t fun u => { u with pc := pc' }) ∧
      ((∃ nnn, i = .jp nnn ∨ i = .jpV0 nnn) → Claims.Overwrites i s t fun u => { u with pc := pc' })) ∧
    (∀ m : Memory, i.readsMem = false →
      (i.writesMem = false → Claims.Carries i s t fun u => { u with mem := m }) ∧
      (i.writesMem = true → ∃ m', exec i { s with mem := m } = .next { t with mem := m' })) ∧
    (∀ k : List Word, i.usesStack = false → Claims.Carries i s t fun u => { u with stack := k }) ∧
    (∀ fb' : Framebuffer,
      (i.writesFb = false → Claims.Carries i s t fun u => { u with fb := fb' }) ∧
      ((∃ ign, i = .cls ign) → Claims.Overwrites i s t fun u => { u with fb := fb' })) ∧
    (∀ b : Byte,
      ((∀ x, i ≠ .ldVxDt x ∧ i ≠ .ldDtVx x) → Claims.Carries i s t fun u => { u with dt := b }) ∧
      ((∃ x, i = .ldDtVx x) → Claims.Overwrites i s t fun u => { u with dt := b })) ∧
    (∀ b : Byte,
      ((∀ x, i ≠ .ldStVx x) → Claims.Carries i s t fun u => { u with st := b }) ∧
      ((∃ x, i = .ldStVx x) → Claims.Overwrites i s t fun u => { u with st := b })) ∧
    (∀ kw' : KeyWait,
      ((∀ x, i ≠ .ldVxK x) → Claims.Carries i s t fun u => { u with kw := kw' }) ∧
      ((∃ x, i = .ldVxK x) → Claims.Overwrites i s t fun u => { u with kw := kw' })) ∧
    (∀ f : Option FaultRecord, s.fault = none →
      (t.fault = none → Claims.Carries i s t fun u => { u with fault := f }) ∧
      (t.fault ≠ none → Claims.Overwrites i s t fun u => { u with fault := f })) ∧
    (∀ ks : KeyState, i.readsKeys = false → Claims.Carries i s t fun u => { u with keys := ks }) ∧
    (∀ p : Ports, (∀ x nn, i ≠ .rnd x nn) → Claims.Carries i s t fun u => { u with ports := p }) ∧
    (∀ es : List Event, Claims.Carries i s t fun u => { u with events := es }) ∧
    (∀ c : Nat, Claims.Carries i s t fun u => { u with cycle := c }) ∧
    (∀ n : Nat, Claims.Carries i s t fun u => { u with config := { u.config with cyclesPerTick := n } }) ∧
    (∀ c : Config, i.readsMem = false → i.writesMem = false → Claims.Carries i s t fun u => { u with config := c })

/-- R18: the parity of `pc` is a property of the program, not of the core (the spec's decision D1; log 18). If `pc` and
every return address are even and the target the instruction assigns, if it assigns one, is even, then `pc` and every
return address are even after it. -/
def Obligations.EvenTargetsKeepPcEven : Prop :=
  ∀ (i : Instr) (s t : State), exec i s = .next t → s.pc.toNat % 2 = 0 → (∀ a ∈ s.stack, a.toNat % 2 = 0) →
    (∀ nnn, i = .jp nnn ∨ i = .call nnn → nnn.toNat % 2 = 0) →
    (∀ nnn, i = .jpV0 nnn → (nnn.toNat + (s.reg 0).toNat) % 2 = 0) →
    t.pc.toNat % 2 = 0 ∧ ∀ a ∈ t.stack, a.toNat % 2 = 0

/-! ## The cycle, the key-wait gate and the tick -/

/-- R44: the fetch reads the two bytes at `pc` and `pc + 1` when both are inside memory; the byte at the lower address is
the high byte of the word. -/
def Obligations.FetchIsBigEndian : Prop :=
  ∀ s : State, s.pc.toNat ≤ 0xFFE →
    ∃ op, s.fetch = some op ∧
      op.toNat = (s.readByte s.pc.toNat).toNat * 256 + (s.readByte (s.pc.toNat + 1)).toNat

/-- The state in which a fetched instruction executes: the tick has begun if this is its first step, the cycle is
counted, and `pc` is advanced by 2 (R81, R87; log 1). -/
def Sys2Proof.Claims.atExecute (s : State) : State :=
  { s.beginTick with cycle := s.cycle + 1, pc := s.pc + 2 }

/-- R81, R86: a step whose cycle is due, in a core that is neither faulted nor waiting, runs the instruction its two
bytes at `pc` decode to. That one step is one cycle, counted in `cycle`, is the model's (log 1). -/
def Obligations.StepRunsDecodedInstruction : Prop :=
  ∀ (s : State) (i : Instr), s.fault = none → s.cycle < s.config.cyclesPerTick → s.kw = .running →
    s.pc.toNat ≤ 0xFFE → decode [s.readByte s.pc.toNat, s.readByte (s.pc.toNat + 1)] = .instr i [] →
    step s = exec i (Claims.atExecute s)

/-- R69, R209: an unknown word is a no-op that advances `pc` and emits one event with the word and the address it was
fetched from; nothing else changes and no fault is taken. The event's payload and that each execution emits one are the
spec's decisions D19, D32 (log 25); the count of cycles is the model's (log 1). -/
def Obligations.UnknownWordIsNoOpWithEvent : Prop :=
  ∀ (s : State) (op : Word), s.fault = none → s.cycle < s.config.cyclesPerTick → s.kw = .running →
    s.pc.toNat ≤ 0xFFE →
    decode [s.readByte s.pc.toNat, s.readByte (s.pc.toNat + 1)] = .rejected (.unknownOpcode op) →
    step s = .next { Claims.atExecute s with events := s.beginTick.events ++ [.unknownOpcode op s.pc] }

/-- R84: a waiting core with no key pressed stalls: its cycle leaves everything as it was but the count of the tick's
cycles (and, on the tick's first step, the tick's key state and empty event list); the count is the model's (log 1). That
a stalled cycle fetches, and so needs `pc` inside memory, and emits nothing is the spec's decision D31 (log 17). -/
def Obligations.StallLeavesStateUnchanged : Prop :=
  ∀ (s : State) (r : Reg), s.fault = none → s.cycle < s.config.cyclesPerTick → s.kw = .waiting r →
    s.pc.toNat ≤ 0xFFE → s.beginTick.keys = 0 → step s = .next { s.beginTick with cycle := s.cycle + 1 }

/-- R83, R85: a waiting core with a key pressed writes the lowest pressed key's index to the target register, returns to
`RUNNING`, and in the same cycle executes the word it fetched, which sees the new value. The order of the scan, the
execution in the releasing cycle and the fetch in every waiting cycle are the spec's decisions D14, D15, D31 (log 17). -/
def Obligations.ReleaseDeliversLowestKeyAndExecutes : Prop :=
  ∀ (s : State) (r k : Reg) (op : Word), s.fault = none → s.cycle < s.config.cyclesPerTick → s.kw = .waiting r →
    s.fetch = some op → s.beginTick.keys.getLsbD k.val = true →
    (∀ j : Reg, j < k → s.beginTick.keys.getLsbD j.val = false) →
    ∃ u, u = { Claims.atExecute s with v := u.v, kw := .running } ∧
      u.reg r = BitVec.ofNat 8 k.val ∧ (∀ q, q ≠ r → u.reg q = s.reg q) ∧
      (∀ i, decodeWord op = some i → step s = exec i u) ∧
      (decodeWord op = none → step s = .next { u with events := s.beginTick.events ++ [.unknownOpcode op s.pc] })

/-- R49, R203 (b): a fetch outside memory takes the fault with the lowest out-of-range address and no word, `pc` not
advanced, waiting or not, with no key sampled. That such a fetch is fatal is the spec's decision D2, its record D3, D4,
and that a waiting cycle fetches D31. -/
def Obligations.FetchOutsideMemoryFaults : Prop :=
  ∀ s : State, s.fault = none → s.cycle < s.config.cyclesPerTick → 0xFFE < s.pc.toNat →
    ∃ a : Word, a.toNat = max s.pc.toNat 0x1000 ∧
      step s = .next { s.beginTick with
        cycle := s.cycle + 1, fault := some ⟨.outOfBoundsMemoryAccess, a, none⟩ }

/-- R87, R88: when the tick's N cycles have run the next step is the timer step: each nonzero timer counts down by one,
`Beep` is emitted exactly when the sound timer goes from 1 to 0, whether or not the core is waiting, and the tick ends.
With N = 0 that step is the whole tick (the spec's decision D18). That the timer step is a step of its own is the
model's (log 1). -/
def Obligations.TimerStepEndsTick : Prop :=
  ∀ s : State, s.fault = none → s.config.cyclesPerTick ≤ s.cycle →
    ∃ t, step s = .next t ∧ t.dt.toNat = s.dt.toNat - 1 ∧ t.st.toNat = s.st.toNat - 1 ∧
      (s.st = 1 → t.events = s.beginTick.events ++ [.beep]) ∧ (s.st ≠ 1 → t.events = s.beginTick.events) ∧
      t = { s.beginTick with dt := t.dt, st := t.st, events := t.events, cycle := 0 }

/-- R88, R89 (a), R210: over any number of timer steps each timer counts down to 0 and stays there, and one `Beep` is
emitted, in the step in which a nonzero sound timer reaches 0. -/
def Obligations.TimersCountDownAndBeepOnce : Prop :=
  ∀ (k : Nat) (s : State),
    let t := State.timerStep^[k] s
    t.dt.toNat = s.dt.toNat - k ∧ t.st.toNat = s.st.toNat - k ∧
    t.events.count .beep = s.events.count .beep + (if 0 < s.st.toNat ∧ s.st.toNat ≤ k then 1 else 0)

/-- R204, R205: a step answers a next state exactly when the core is not faulted; a faulted core is stuck, with its
record, and a tick on it changes nothing and returns failed with no events (the spec's decision D3; log 7). -/
def Obligations.OnlyFaultedCoreIsStuck : Prop :=
  (∀ s : State, s.fault = none ↔ ∃ t, step s = .next t) ∧
  ∀ (s : State) (r : FaultRecord), s.fault = some r →
    step s = .fault (.coreFaulted r) ∧
    ∀ keys, s.tick keys = .next { state := s, events := [], ok := false }

/-- R35, R18, R200, R210, R212: every step keeps the invariant, from every state that meets it, and leaves the
parameters as they are. The bound of `pc` rests on the spec's decision D33, the clauses on the fault record on its D3 and
D4, those on `cycle` on the model's steps (log 1). -/
def Obligations.StepKeepsInvariant : Prop :=
  ∀ s t : State, s.Inv → step s = .next t → t.Inv ∧ t.config = s.config

/-- R87, R204: the steps are the tick. From the boundary between two ticks, N + 1 steps of the machine do what `Tick` does
with the key state the host supplies. If it returns ok, they are N cycles under one key state and one timer step, and the
state and the events after them are the tick's. If it returns failed, at most N of the steps, cycles all, lead to the state
the tick returns but for the model's count of cycles, faulted, with no timer step and with the events so far, and the next
step is the stop with that fault. How a tick is cut into steps and where its key state comes from is the model's
(log 1, 2, 7); the fault's mechanism is the spec's decision D3 (log 19). -/
def Obligations.TickIsItsSteps : Prop :=
  ∀ s : State, s.fault = none → s.cycle = 0 →
    ∃ r, ({ s with ports := s.ports.nextKeys.2 } : State).tick s.ports.nextKeys.1 = .next r ∧
      r.events = r.state.events ∧
      (r.ok = true → r.state.fault = none ∧ run (s.config.cyclesPerTick + 1) s = .next r.state) ∧
      (r.ok = false → ∃ (f : FaultRecord) (k : Nat) (u : State), r.state.fault = some f ∧
        0 < k ∧ k ≤ s.config.cyclesPerTick ∧ run k s = .next u ∧ u = { r.state with cycle := k } ∧
        run (s.config.cyclesPerTick + 1) s = .fault (.coreFaulted f))

/-- R84, R89 (c), (d): a whole tick of a waiting core with no key pressed, whatever N, leaves everything as it was but
the timers, which count on. That a waiting cycle fetches, and so needs `pc` inside memory, is the spec's decision D31
(log 17). -/
def Obligations.WaitingTickOnlyCountsTimers : Prop :=
  ∀ (s : State) (r : Reg), s.fault = none → s.kw = .waiting r → s.pc.toNat ≤ 0xFFE →
    s.tick 0 = .next
      { state := ({ s with keys := 0, events := [] } : State).timerStep
        events := if s.st = 1 then [.beep] else []
        ok := true }

/-- R98: a jump to itself is a fixed point of the cycle. -/
def Obligations.SelfJumpIsFixedPoint : Prop :=
  ∀ (s : State) (nnn : Addr12), s.kw = .running → s.pc.toNat = nnn.toNat → s.fetch = some (encode (.jp nnn)) →
    s.runCycle = .next s

/-- R44, R81: storing the bytes of a word of the opcode table where the next step fetches makes that very step fetch
and run it, from any state with canonical memory: the model's stand-in for a loaded program (log 9). -/
def Obligations.PlacedWordRunsNext : Prop :=
  ∀ (s : State) (w : Nat) (i : Instr), Memory.wf s.config s.mem = true → w < 65536 →
    decodeWord (BitVec.ofNat 16 w) = some i →
    let s' := s.withFetchWord 16 w
    decodeTableWord 16 w = some i ∧ step s' = exec i (Claims.atExecute s') ∧
    (s.pc.toNat ≤ 0xFFE → s'.pc = s.pc) ∧
    ∀ a, a ≠ s'.pc.toNat → a ≠ s'.pc.toNat + 1 → s'.readByte a = s.readByte a

/-- R230, R232, R233: the order of the host's operations. A reset is always possible; one load, on a fresh core; ticks
only after a load that returned ok, and then always, each with the result of Tick; neither a load nor a tick after a
rejected load. What has no move rests on the spec's decision D20, reset from any state on its D34; that the place in
the order is kept beside the core is the model's (log 20). -/
def Obligations.HostOperationsFollowBootOrder : Prop :=
  ∀ (s : Session) (image : List Byte) (keys : KeyState),
    s.apply .reset = some (⟨.fresh, s.core.reboot⟩, .resetDone) ∧
    (s.phase = .fresh → s.core = s.core.reboot → image.length ≤ 3584 →
      ∃ t, s.core.load image = .ok t ∧ s.apply (.load image) = some (⟨.loaded, t⟩, .loadOk)) ∧
    (s.phase = .fresh → s.core = s.core.reboot → 3584 < image.length →
      s.apply (.load image) = some (⟨.rejected, s.core⟩, .oversizedCartridge)) ∧
    (s.phase ≠ .fresh → s.apply (.load image) = none) ∧
    (s.phase = .loaded →
      ∃ r, s.core.tick keys = .next r ∧ s.apply (.tick keys) = some (⟨.loaded, r.state⟩, .ticked r.events r.ok)) ∧
    (s.phase ≠ .loaded → s.apply (.tick keys) = none)

/-- R200, R207: the codes of the table. The latch shows 0 exactly when there is no fault and otherwise its kind's code, 1
to 4; after an instruction it shows 0 or the code of the one kind that instruction can raise; a load has a code exactly
when it is made in the reset state with an image that does not fit, and that code is 5, `OversizedCartridge`, with the
latch at 0; an unknown word is one event with its word and address and leaves the latch as it was. The numbers are the
spec's decision D4 (log 19). That a load outside the reset state has no move, and so no code, is its decision D20, and that
being in the reset state is read as equality with it is the model's (log 20, DEDUCED). The event's payload, and that each
execution emits one, are its decisions D19, D32 (log 25). -/
def Obligations.CodesOfFaultsAndLoadError : Prop :=
  (FaultKind.stackUnderflow.code = 1 ∧ FaultKind.stackOverflow.code = 2 ∧
    FaultKind.outOfBoundsMemoryAccess.code = 3 ∧ FaultKind.badKeyIndex.code = 4) ∧
  (∀ s : State, (s.faultCode = 0 ↔ s.fault = none) ∧ ∀ r, s.fault = some r → s.faultCode = r.kind.code) ∧
  (∀ (i : Instr) (s t : State), s.fault = none → exec i s = .next t →
    t.faultCode = 0 ∨ i.faultKind.map FaultKind.code = some t.faultCode) ∧
  (∀ (s : State) (image : List Byte),
    ((s.load image).code = some 5 ↔ s = s.reboot ∧ 3584 < image.length) ∧
    (∀ n, (s.load image).code = some n → n = 5 ∧ s.faultCode = 0)) ∧
  ∀ (op : Word) (s : State), decodeWord op = none →
    ∃ t, executeWord op s = .next t ∧ t.faultCode = s.faultCode ∧
      t.events = s.events ++ [.unknownOpcode op s.instrAddress]
end

