-- ==== Sys2Proof/Laws/Decode.lean ====
section
/-! SUPPORT. The fields of an encoded word are the fields it was made from, and each word is made of its fields: the
lemmas from which decode and encode are shown to agree (spec/30_encoding.md R61, R62). -/

namespace Sys2Proof

/-! ## Bits of concatenations -/

theorem getLsbD_append_4_12 (g : Nibble) (a : Addr12) (k : Nat) :
    (g ++ a : Word).getLsbD k = if k < 12 then a.getLsbD k else g.getLsbD (k - 12) :=
  BitVec.getLsbD_append

theorem getLsbD_append_4_8 (x : Nibble) (nn : Byte) (k : Nat) :
    (x ++ nn : Addr12).getLsbD k = if k < 8 then nn.getLsbD k else x.getLsbD (k - 8) :=
  BitVec.getLsbD_append

theorem getLsbD_append_4_4 (y n : Nibble) (k : Nat) :
    (y ++ n : Byte).getLsbD k = if k < 4 then n.getLsbD k else y.getLsbD (k - 4) :=
  BitVec.getLsbD_append

theorem getLsbD_append_8_8 (hi lo : Byte) (k : Nat) :
    (hi ++ lo : Word).getLsbD k = if k < 8 then lo.getLsbD k else hi.getLsbD (k - 8) :=
  BitVec.getLsbD_append

/-! ## Fields of encoded words -/

@[simp] theorem fieldG_encodeA (g : Nibble) (a : Addr12) : fieldG (encodeA g a) = g := by
  apply BitVec.eq_of_getLsbD_eq; intro k hk
  rw [fieldG, encodeA, BitVec.getLsbD_extractLsb', getLsbD_append_4_12]
  simp [hk]

@[simp] theorem fieldNNN_encodeA (g : Nibble) (a : Addr12) : fieldNNN (encodeA g a) = a := by
  apply BitVec.eq_of_getLsbD_eq; intro k hk
  rw [fieldNNN, encodeA, BitVec.getLsbD_extractLsb', getLsbD_append_4_12]
  simp [hk]

/-- `X` is the high nibble of `NNN` (R61). -/
theorem fieldXNibble_eq (op : Word) : fieldXNibble op = (fieldNNN op).extractLsb' 8 4 := by
  apply BitVec.eq_of_getLsbD_eq; intro k hk
  have h : 8 + k < 12 := by omega
  simp only [fieldXNibble, fieldNNN, BitVec.getLsbD_extractLsb', hk, h, decide_true, Bool.true_and, Nat.zero_add]

/-- `NN` is the low byte of `NNN` (R61). -/
theorem fieldNN_eq_NNN (op : Word) : fieldNN op = (fieldNNN op).extractLsb' 0 8 := by
  apply BitVec.eq_of_getLsbD_eq; intro k hk
  have h : k < 12 := by omega
  simp only [fieldNN, fieldNNN, BitVec.getLsbD_extractLsb', hk, h, decide_true, Bool.true_and, Nat.zero_add]

/-- `Y` is the high nibble of `NN` (R61). -/
theorem fieldYNibble_eq (op : Word) : fieldYNibble op = (fieldNN op).extractLsb' 4 4 := by
  apply BitVec.eq_of_getLsbD_eq; intro k hk
  have h : 4 + k < 8 := by omega
  simp only [fieldYNibble, fieldNN, BitVec.getLsbD_extractLsb', hk, h, decide_true, Bool.true_and, Nat.zero_add]

/-- `N` is the low nibble of `NN` (R61). -/
theorem fieldN_eq (op : Word) : fieldN op = (fieldNN op).extractLsb' 0 4 := by
  apply BitVec.eq_of_getLsbD_eq; intro k hk
  have h : k < 8 := by omega
  simp only [fieldN, fieldNN, BitVec.getLsbD_extractLsb', hk, h, decide_true, Bool.true_and, Nat.zero_add]

theorem encodeRI_eq (g x : Nibble) (nn : Byte) : encodeRI g x nn = encodeA g (x ++ nn : Addr12) := rfl

theorem encodeRR_eq (g : Nibble) (x y : Reg) (n : Nibble) :
    encodeRR g x y n = encodeRI g (regNibble x) (regNibble y ++ n : Byte) := rfl

@[simp] theorem fieldG_encodeRI (g x : Nibble) (nn : Byte) : fieldG (encodeRI g x nn) = g :=
  fieldG_encodeA g (x ++ nn : Addr12)

@[simp] theorem fieldXNibble_encodeRI (g x : Nibble) (nn : Byte) : fieldXNibble (encodeRI g x nn) = x := by
  rw [fieldXNibble_eq, encodeRI_eq, fieldNNN_encodeA]
  apply BitVec.eq_of_getLsbD_eq; intro k hk
  rw [BitVec.getLsbD_extractLsb', getLsbD_append_4_8]
  simp [hk]

@[simp] theorem fieldNN_encodeRI (g x : Nibble) (nn : Byte) : fieldNN (encodeRI g x nn) = nn := by
  rw [fieldNN_eq_NNN, encodeRI_eq, fieldNNN_encodeA]
  apply BitVec.eq_of_getLsbD_eq; intro k hk
  rw [BitVec.getLsbD_extractLsb', getLsbD_append_4_8]
  simp [hk]

@[simp] theorem regNibble_toFin (r : Reg) : (regNibble r).toFin = r := rfl

@[simp] theorem fieldX_encodeRI (g : Nibble) (x : Reg) (nn : Byte) : fieldX (encodeRI g (regNibble x) nn) = x := by
  rw [fieldX, fieldXNibble_encodeRI, regNibble_toFin]

@[simp] theorem fieldG_encodeRR (g : Nibble) (x y : Reg) (n : Nibble) : fieldG (encodeRR g x y n) = g :=
  fieldG_encodeRI g _ _

@[simp] theorem fieldX_encodeRR (g : Nibble) (x y : Reg) (n : Nibble) : fieldX (encodeRR g x y n) = x :=
  fieldX_encodeRI g x _

@[simp] theorem fieldY_encodeRR (g : Nibble) (x y : Reg) (n : Nibble) : fieldY (encodeRR g x y n) = y := by
  have h : fieldYNibble (encodeRR g x y n) = regNibble y := by
    rw [fieldYNibble_eq, encodeRR_eq, fieldNN_encodeRI]
    apply BitVec.eq_of_getLsbD_eq; intro k hk
    rw [BitVec.getLsbD_extractLsb', getLsbD_append_4_4]
    simp [hk]
  rw [fieldY, h, regNibble_toFin]

@[simp] theorem fieldN_encodeRR (g : Nibble) (x y : Reg) (n : Nibble) : fieldN (encodeRR g x y n) = n := by
  rw [fieldN_eq, encodeRR_eq, fieldNN_encodeRI]
  apply BitVec.eq_of_getLsbD_eq; intro k hk
  rw [BitVec.getLsbD_extractLsb', getLsbD_append_4_4]
  simp [hk]

/-! ## Words made of their fields -/

@[simp] theorem regNibble_fieldX (op : Word) : regNibble (fieldX op) = fieldXNibble op := rfl
@[simp] theorem regNibble_fieldY (op : Word) : regNibble (fieldY op) = fieldYNibble op := rfl

theorem encodeA_fields (op : Word) : encodeA (fieldG op) (fieldNNN op) = op := by
  apply BitVec.eq_of_getLsbD_eq; intro k hk
  rw [encodeA, getLsbD_append_4_12, fieldG, fieldNNN, BitVec.getLsbD_extractLsb', BitVec.getLsbD_extractLsb']
  split
  · next h => simp [h]
  · simp [show k - 12 < 4 by omega, show 12 + (k - 12) = k by omega]

/-- `NNN` is `X ++ NN` (R61). -/
theorem fieldNNN_eq (op : Word) : (fieldXNibble op ++ fieldNN op : Addr12) = fieldNNN op := by
  apply BitVec.eq_of_getLsbD_eq; intro k hk
  rw [getLsbD_append_4_8, fieldXNibble, fieldNN, fieldNNN, BitVec.getLsbD_extractLsb', BitVec.getLsbD_extractLsb',
    BitVec.getLsbD_extractLsb']
  split
  · next h => simp [h, hk]
  · simp [hk, show k - 8 < 4 by omega, show 8 + (k - 8) = k by omega]

theorem encodeRI_fields (op : Word) : encodeRI (fieldG op) (fieldXNibble op) (fieldNN op) = op := by
  rw [encodeRI_eq, fieldNNN_eq, encodeA_fields]

/-- `NN` is `Y ++ N` (R61). -/
theorem fieldNN_eq (op : Word) : (fieldYNibble op ++ fieldN op : Byte) = fieldNN op := by
  apply BitVec.eq_of_getLsbD_eq; intro k hk
  rw [getLsbD_append_4_4, fieldYNibble, fieldN, fieldNN, BitVec.getLsbD_extractLsb', BitVec.getLsbD_extractLsb',
    BitVec.getLsbD_extractLsb']
  split
  · next h => simp [h, hk]
  · simp [hk, show k - 4 < 4 by omega, show 4 + (k - 4) = k by omega]

theorem encodeRR_fields (op : Word) : encodeRR (fieldG op) (fieldX op) (fieldY op) (fieldN op) = op := by
  rw [encodeRR_eq, regNibble_fieldX, regNibble_fieldY, fieldNN_eq, encodeRI_fields]

/-! ## Bytes of words (R44) -/

/-- A word is made again from its bytes (R44). -/
@[simp] theorem opcodeOfBytes_bytes (op : Word) :
    opcodeOfBytes (op.extractLsb' 8 8) (op.extractLsb' 0 8) = op := by
  apply BitVec.eq_of_getLsbD_eq; intro k hk
  rw [opcodeOfBytes, getLsbD_append_8_8, BitVec.getLsbD_extractLsb', BitVec.getLsbD_extractLsb']
  split
  · next h => simp [h]
  · simp [show k - 8 < 8 by omega, show 8 + (k - 8) = k by omega]

/-- Two bytes are the bytes of the word they make (R44). -/
@[simp] theorem bytes_opcodeOfBytes (hi lo : Byte) : bytesOfOpcode (opcodeOfBytes hi lo) = [hi, lo] := by
  have h1 : (opcodeOfBytes hi lo).extractLsb' 8 8 = hi := by
    apply BitVec.eq_of_getLsbD_eq; intro k hk
    rw [opcodeOfBytes, BitVec.getLsbD_extractLsb', getLsbD_append_8_8]
    simp [hk]
  have h2 : (opcodeOfBytes hi lo).extractLsb' 0 8 = lo := by
    apply BitVec.eq_of_getLsbD_eq; intro k hk
    rw [opcodeOfBytes, BitVec.getLsbD_extractLsb', getLsbD_append_8_8]
    simp [hk]
  rw [bytesOfOpcode, h1, h2]

/-- The word two bytes make, as a number (R44). -/
theorem toNat_opcodeOfBytes (hi lo : Byte) : (opcodeOfBytes hi lo).toNat = hi.toNat * 256 + lo.toNat := by
  rw [opcodeOfBytes, BitVec.toNat_append, ← Nat.shiftLeft_add_eq_or_of_lt lo.isLt, Nat.shiftLeft_eq]

@[simp] theorem length_bytesOfOpcode (op : Word) : (bytesOfOpcode op).length = 2 := rfl

/-- Decoding the bytes of a known word gives its instruction and leaves the bytes after it (R44, R60). -/
theorem decode_bytes_of_some {op : Word} {i : Instr} (h : decodeWord op = some i) (rest : List Byte) :
    decode (bytesOfOpcode op ++ rest) = .instr i rest := by
  simp [bytesOfOpcode, decode, h]

/-- Decoding the bytes of an unknown word rejects it by name (R44, R69). -/
theorem decode_bytes_of_none {op : Word} (h : decodeWord op = none) (rest : List Byte) :
    decode (bytesOfOpcode op ++ rest) = .rejected (.unknownOpcode op) := by
  simp [bytesOfOpcode, decode, h]

/-- The decoder on two bytes reads the word they make (R44). -/
theorem decode_two_bytes {hi lo : Byte} {i : Instr} :
    decode [hi, lo] = .instr i [] ↔ decodeWord (opcodeOfBytes hi lo) = some i := by
  rw [decode]
  cases decodeWord (opcodeOfBytes hi lo) <;> simp

/-- The decoder on two bytes rejects the word they make by name (R44, R69). -/
theorem decode_two_bytes_unknown {hi lo : Byte} {op : Word} :
    decode [hi, lo] = .rejected (.unknownOpcode op) ↔ decodeWord op = none ∧ opcodeOfBytes hi lo = op := by
  rw [decode]
  cases h : decodeWord (opcodeOfBytes hi lo) with
  | none =>
    simp only [Decoded.rejected.injEq, DecodeError.unknownOpcode.injEq]
    exact ⟨fun e => ⟨e ▸ h, e⟩, And.right⟩
  | some i =>
    simp only [reduceCtorEq, false_iff]
    rintro ⟨h1, rfl⟩
    rw [h] at h1; cases h1

/-! ## Masks (R66) -/

/-- A word is determined by its group and its low 12 bits. -/
theorem word_ext {a b : Word} (hg : fieldG a = fieldG b) (hn : fieldNNN a = fieldNNN b) : a = b := by
  rw [← encodeA_fields a, hg, hn, encodeA_fields]

theorem fieldG_and (a b : Word) : fieldG (a &&& b) = fieldG a &&& fieldG b := by
  apply BitVec.eq_of_getLsbD_eq; intro k hk
  simp [fieldG, hk]

theorem fieldNNN_and (a b : Word) : fieldNNN (a &&& b) = fieldNNN a &&& fieldNNN b := by
  apply BitVec.eq_of_getLsbD_eq; intro k hk
  simp [fieldNNN, hk]

theorem fieldNN_and (a b : Word) : fieldNN (a &&& b) = fieldNN a &&& fieldNN b := by
  apply BitVec.eq_of_getLsbD_eq; intro k hk
  simp [fieldNN, hk]

theorem fieldN_and (a b : Word) : fieldN (a &&& b) = fieldN a &&& fieldN b := by
  apply BitVec.eq_of_getLsbD_eq; intro k hk
  simp [fieldN, hk]

theorem fieldXNibble_and (a b : Word) : fieldXNibble (a &&& b) = fieldXNibble a &&& fieldXNibble b := by
  apply BitVec.eq_of_getLsbD_eq; intro k hk
  simp [fieldXNibble, hk]

theorem fieldYNibble_and (a b : Word) : fieldYNibble (a &&& b) = fieldYNibble a &&& fieldYNibble b := by
  apply BitVec.eq_of_getLsbD_eq; intro k hk
  simp [fieldYNibble, hk]

theorem nibble_and_ones (a : Nibble) : a &&& 0xF = a := by
  revert a; decide

/-- The mask of a row that fixes the group alone. -/
theorem and_F000 (op : Word) (g : Nibble) : op &&& 0xF000 = encodeA g 0 ↔ fieldG op = g := by
  have hg : fieldG (op &&& 0xF000) = fieldG op := by
    rw [fieldG_and, show fieldG 0xF000 = 0xF by decide, nibble_and_ones]
  have hn : fieldNNN (op &&& 0xF000) = 0 := by
    rw [fieldNNN_and, show fieldNNN 0xF000 = 0 by decide]; simp
  constructor
  · intro h; rw [← hg, h, fieldG_encodeA]
  · intro h; exact word_ext (by rw [hg, h, fieldG_encodeA]) (by rw [hn, fieldNNN_encodeA])

/-- The mask of a row that fixes the group and `NN`. -/
theorem and_F0FF (op : Word) (g : Nibble) (nn : Byte) :
    op &&& 0xF0FF = encodeRI g 0 nn ↔ fieldG op = g ∧ fieldNN op = nn := by
  have hg : fieldG (op &&& 0xF0FF) = fieldG op := by
    rw [fieldG_and, show fieldG 0xF0FF = 0xF by decide, nibble_and_ones]
  have hx : fieldXNibble (op &&& 0xF0FF) = 0 := by
    rw [fieldXNibble_and, show fieldXNibble 0xF0FF = 0 by decide]; simp
  have hn : fieldNN (op &&& 0xF0FF) = fieldNN op := by
    rw [fieldNN_and, show fieldNN 0xF0FF = BitVec.allOnes 8 by decide, BitVec.and_allOnes]
  constructor
  · intro h; exact ⟨by rw [← hg, h, fieldG_encodeRI], by rw [← hn, h, fieldNN_encodeRI]⟩
  · rintro ⟨h1, h2⟩; rw [← encodeRI_fields (op &&& 0xF0FF), hg, hx, hn, h1, h2]

/-- The mask of a row that fixes the group and `N`. -/
theorem and_F00F (op : Word) (g n : Nibble) :
    op &&& 0xF00F = encodeRR g 0 0 n ↔ fieldG op = g ∧ fieldN op = n := by
  have hg : fieldG (op &&& 0xF00F) = fieldG op := by
    rw [fieldG_and, show fieldG 0xF00F = 0xF by decide, nibble_and_ones]
  have hx : fieldX (op &&& 0xF00F) = 0 := by
    rw [fieldX, fieldXNibble_and, show fieldXNibble 0xF00F = 0 by decide]; simp
  have hy : fieldY (op &&& 0xF00F) = 0 := by
    rw [fieldY, fieldYNibble_and, show fieldYNibble 0xF00F = 0 by decide]; simp
  have hn : fieldN (op &&& 0xF00F) = fieldN op := by
    rw [fieldN_and, show fieldN 0xF00F = 0xF by decide, nibble_and_ones]
  constructor
  · intro h; exact ⟨by rw [← hg, h, fieldG_encodeRR], by rw [← hn, h, fieldN_encodeRR]⟩
  · rintro ⟨h1, h2⟩; rw [← encodeRR_fields (op &&& 0xF00F), hg, hx, hy, hn, h1, h2]

/-- The words of a row that fixes the group alone (R66). -/
theorem covers_F000 {op value : Word} (hv : encodeA (fieldG value) 0 = value) :
    op &&& 0xF000 = value ↔ fieldG op = fieldG value := by
  rw [← and_F000, hv]

/-- The words of a row that fixes the group and `NN` (R66). -/
theorem covers_F0FF {op value : Word} (hv : encodeRI (fieldG value) 0 (fieldNN value) = value) :
    op &&& 0xF0FF = value ↔ fieldG op = fieldG value ∧ fieldNN op = fieldNN value := by
  rw [← and_F0FF, hv]

/-- The words of a row that fixes the group and `N` (R66). -/
theorem covers_F00F {op value : Word} (hv : encodeRR (fieldG value) 0 0 (fieldN value) = value) :
    op &&& 0xF00F = value ↔ fieldG op = fieldG value ∧ fieldN op = fieldN value := by
  rw [← and_F00F, hv]

/-- The word of an instruction is a word of its row (R66). -/
theorem encode_row (i : Instr) : encode i &&& i.row.mask = i.row.value := by
  cases i <;> simp only [encode, Instr.row] <;> first
    | exact (covers_F000 (by decide)).mpr (by simp only [fieldG_encodeA]; rfl)
    | exact (covers_F000 (by decide)).mpr (by simp only [fieldG_encodeRI]; rfl)
    | exact (covers_F000 (by decide)).mpr (by simp only [fieldG_encodeRR]; rfl)
    | exact (covers_F0FF (by decide)).mpr (by simp only [fieldG_encodeRI, fieldNN_encodeRI]; exact ⟨rfl, rfl⟩)
    | exact (covers_F00F (by decide)).mpr (by simp only [fieldG_encodeRR, fieldN_encodeRR]; exact ⟨rfl, rfl⟩)

end Sys2Proof
end

