-- ==== Sys2Proof/Laws/Display.lean ====
section
/-! SUPPORT. What a draw does to each pixel, and when it collides: the loops of spec/44_display.md R161 as a statement
about every pixel. -/

namespace Sys2Proof.Machine

@[simp] theorem Framebuffer.pixel_clear (x y : Nat) : Framebuffer.pixel Framebuffer.clear x y = false := by
  simp [Framebuffer.pixel, Framebuffer.clear]

/-- There is no pixel outside the grid (R23). -/
theorem Framebuffer.pixel_outside (fb : Framebuffer) {x y : Nat} (h : ¬(x < 64 ∧ y < 32)) :
    Framebuffer.pixel fb x y = false := by
  simp [Framebuffer.pixel, h]

/-- A flip changes its own pixel, if it is in the grid, and no other. -/
theorem Framebuffer.pixel_flip (fb : Framebuffer) (x y px py : Nat) :
    Framebuffer.pixel (Framebuffer.flip fb x y) px py =
      (Framebuffer.pixel fb px py ^^ decide (px = x ∧ py = y ∧ x < 64 ∧ y < 32)) := by
  by_cases hin : x < 64 ∧ y < 32
  · by_cases hp : px < 64 ∧ py < 32
    · by_cases hy : y = py
      · subst hy
        by_cases hx : x = px
        · subst hx
          simp [Framebuffer.flip, Framebuffer.pixel, hin]
        · simp [Framebuffer.flip, Framebuffer.pixel, hin, hp, hx, Vector.getElem_set_ne, Ne.symm hx]
      · simp [Framebuffer.flip, Framebuffer.pixel, hin, hp, Vector.getElem_set_ne, hy, Ne.symm hy]
    · rw [Framebuffer.pixel_outside _ hp, Framebuffer.pixel_outside _ hp]
      have : ¬(px = x ∧ py = y ∧ x < 64 ∧ y < 32) := by
        rintro ⟨rfl, rfl, h⟩; exact hp h
      simp [this]
  · simp [Framebuffer.flip, hin]

/-- Plotting a sprite bit XORs it into its own pixel (R161). -/
theorem Framebuffer.pixel_plot (fb : Framebuffer) (x y px py : Nat) (b : Bool) :
    Framebuffer.pixel (Framebuffer.plot fb x y b).1 px py =
      (Framebuffer.pixel fb px py ^^ (b && decide (px = x ∧ py = y ∧ x < 64 ∧ y < 32))) := by
  cases b <;> simp [Framebuffer.plot, Framebuffer.pixel_flip]

@[simp] theorem Framebuffer.collision_plot (fb : Framebuffer) (x y : Nat) (b : Bool) :
    (Framebuffer.plot fb x y b).2 = (b && Framebuffer.pixel fb x y) := by
  cases b <;> simp [Framebuffer.plot]

/-- Column `x` is one of the last `k` columns of a sprite row at `x0`, and its bit is set. -/
def rowBit (row : Byte) (x0 k x : Nat) : Bool :=
  decide (x0 + 8 ≤ x + k ∧ x0 ≤ x ∧ x ≤ x0 + 7) && row.getLsbD (7 - (x - x0))

@[simp] theorem rowBit_zero (row : Byte) (x0 x : Nat) : rowBit row x0 0 x = false := by
  unfold rowBit; rw [decide_eq_false (by omega)]; rfl

theorem rowBit_succ (row : Byte) {x0 k : Nat} (hk : k < 8) (x : Nat) :
    rowBit row x0 (k + 1) x = ((row.getLsbD k && decide (x = x0 + (7 - k))) ^^ rowBit row x0 k x) := by
  by_cases hx : x = x0 + (7 - k)
  · subst hx
    have h1 : ¬(x0 + 8 ≤ x0 + (7 - k) + k) := by omega
    have h2 : x0 + 8 ≤ x0 + (7 - k) + (k + 1) := by omega
    have h3 : 7 - (7 - k) = k := by omega
    simp [rowBit, h1, h2, h3]
  · by_cases hc : x0 ≤ x ∧ x ≤ x0 + 7
    · have : x0 + 8 ≤ x + (k + 1) ↔ x0 + 8 ≤ x + k := by omega
      simp [rowBit, hx, hc, this]
    · simp [rowBit, hx, hc]

/-- What drawing the last `k` columns of a row does to each pixel. -/
theorem Framebuffer.pixel_drawRow (row : Byte) (x0 y : Nat) {k : Nat} (hk : k ≤ 8) (fb : Framebuffer) (px py : Nat) :
    Framebuffer.pixel (Framebuffer.drawRow row x0 y k fb).1 px py =
      (Framebuffer.pixel fb px py ^^ (rowBit row x0 k px && decide (py = y ∧ px < 64 ∧ py < 32))) := by
  induction k generalizing fb with
  | zero => simp [Framebuffer.drawRow]
  | succ k ih =>
    simp only [Framebuffer.drawRow]
    rw [ih (by omega), Framebuffer.pixel_plot, rowBit_succ row (by omega) px]
    by_cases hx : px = x0 + (7 - k)
    · subst hx
      by_cases hy : py = y
      · subst hy
        by_cases hg : x0 + (7 - k) < 64 ∧ py < 32 <;> cases row.getLsbD k <;> simp [hg]
      · simp [hy]
    · simp [hx]

/-- Drawing the last `k` columns of a row collides exactly where a set bit meets a lit pixel. -/
theorem Framebuffer.collision_drawRow (row : Byte) (x0 y : Nat) {k : Nat} (hk : k ≤ 8) (fb : Framebuffer) :
    (Framebuffer.drawRow row x0 y k fb).2 = true ↔
      ∃ px, rowBit row x0 k px = true ∧ Framebuffer.pixel fb px y = true := by
  induction k generalizing fb with
  | zero => simp [Framebuffer.drawRow]
  | succ k ih =>
    have hk' : k < 8 := by omega
    simp only [Framebuffer.drawRow, Bool.or_eq_true, Framebuffer.collision_plot, Bool.and_eq_true]
    rw [ih (by omega)]
    have hnot : rowBit row x0 k (x0 + (7 - k)) = false := by
      have : ¬(x0 + 8 ≤ x0 + (7 - k) + k) := by omega
      simp [rowBit, this]
    constructor
    · rintro (⟨hb, hp⟩ | ⟨px, hb, hp⟩)
      · exact ⟨x0 + (7 - k), by simp [rowBit_succ row hk', hb, hnot], hp⟩
      · have hne : px ≠ x0 + (7 - k) := by rintro rfl; simp [hnot] at hb
        exact ⟨px, by simp [rowBit_succ row hk', hb, hne], by simpa [Framebuffer.pixel_plot, hne] using hp⟩
    · rintro ⟨px, hb, hp⟩
      by_cases hx : px = x0 + (7 - k)
      · subst hx
        rw [rowBit_succ row hk', hnot] at hb
        exact .inl ⟨by simpa using hb, hp⟩
      · refine .inr ⟨px, ?_, by simpa [Framebuffer.pixel_plot, hx] using hp⟩
        simpa [rowBit_succ row hk', hx] using hb

/-- The first row of a sprite, and the others one row down. -/
theorem spriteBit_cons (row : Byte) (rows : List Byte) (x0 y0 px py : Nat) :
    spriteBit (row :: rows) x0 y0 px py =
      ((rowBit row x0 8 px && decide (py = y0)) ^^ spriteBit rows x0 (y0 + 1) px py) := by
  by_cases hy : py = y0
  · subst hy
    have h1 : ¬(py + 1 ≤ py) := by omega
    have h2 : x0 + 8 ≤ px + 8 ↔ x0 ≤ px := by omega
    simp [spriteBit, rowBit, h1, h2]
  · by_cases hlt : y0 < py
    · obtain ⟨d, rfl⟩ : ∃ d, py = y0 + 1 + d := ⟨py - (y0 + 1), by omega⟩
      have h3 : y0 + 1 + d - y0 = d + 1 := by omega
      have h4 : y0 ≤ y0 + 1 + d := by omega
      simp [spriteBit, hy, h3, h4]
    · have h1 : ¬(y0 ≤ py) := by omega
      have h2 : ¬(y0 + 1 ≤ py) := by omega
      simp [spriteBit, hy, h1, h2]

@[simp] theorem spriteBit_nil (x0 y0 px py : Nat) : spriteBit [] x0 y0 px py = false := by
  simp [spriteBit]

/-- A draw XORs the sprite into the grid, each pixel on its own: nothing wraps, what lies outside is dropped (R161, R162
(d), (e)). -/
theorem Framebuffer.pixel_drawSprite (x0 y0 : Nat) (rows : List Byte) (fb : Framebuffer) (px py : Nat) :
    Framebuffer.pixel (Framebuffer.drawSprite x0 y0 rows fb).1 px py =
      (Framebuffer.pixel fb px py ^^ (spriteBit rows x0 y0 px py && decide (px < 64 ∧ py < 32))) := by
  induction rows generalizing y0 fb with
  | nil => simp [Framebuffer.drawSprite]
  | cons row rows ih =>
    simp only [Framebuffer.drawSprite]
    rw [ih, Framebuffer.pixel_drawRow row x0 y0 (le_refl 8), spriteBit_cons]
    rw [show decide (py = y0 ∧ px < 64 ∧ py < 32) = (decide (py = y0) && decide (px < 64 ∧ py < 32)) from
      Bool.decide_and ..]
    cases rowBit row x0 8 px <;> cases decide (py = y0) <;> cases decide (px < 64 ∧ py < 32) <;>
      cases spriteBit rows x0 (y0 + 1) px py <;> cases Framebuffer.pixel fb px py <;> rfl

/-- A draw collides exactly where a set bit of the sprite meets a lit pixel of the framebuffer before it (R161, R162
(f)). -/
theorem Framebuffer.collision_drawSprite (x0 y0 : Nat) (rows : List Byte) (fb : Framebuffer) :
    (Framebuffer.drawSprite x0 y0 rows fb).2 = true ↔
      ∃ px py, spriteBit rows x0 y0 px py = true ∧ Framebuffer.pixel fb px py = true := by
  induction rows generalizing y0 fb with
  | nil => simp [Framebuffer.drawSprite]
  | cons row rows ih =>
    have hbelow : ∀ px, spriteBit rows x0 (y0 + 1) px y0 = false := fun px => by
      have : ¬(y0 + 1 ≤ y0) := by omega
      simp [spriteBit, this]
    simp only [Framebuffer.drawSprite, Bool.or_eq_true]
    rw [ih, Framebuffer.collision_drawRow row x0 y0 (le_refl 8)]
    constructor
    · rintro (⟨px, hb, hp⟩ | ⟨px, py, hb, hp⟩)
      · exact ⟨px, y0, by simp [spriteBit_cons, hb, hbelow], hp⟩
      · have hne : py ≠ y0 := by rintro rfl; simp [hbelow] at hb
        refine ⟨px, py, by simp [spriteBit_cons, hb, hne], ?_⟩
        simpa [Framebuffer.pixel_drawRow row x0 y0 (le_refl 8), hne] using hp
    · rintro ⟨px, py, hb, hp⟩
      by_cases hy : py = y0
      · subst hy
        exact .inl ⟨px, by simpa [spriteBit_cons, hbelow] using hb, hp⟩
      · refine .inr ⟨px, py, by simpa [spriteBit_cons, hy] using hb, ?_⟩
        simpa [Framebuffer.pixel_drawRow row x0 y0 (le_refl 8), hy] using hp

/-- Framebuffers with the same pixels are the same. -/
theorem Framebuffer.ext_pixel {fb fb' : Framebuffer}
    (h : ∀ x y, x < 64 → y < 32 → Framebuffer.pixel fb x y = Framebuffer.pixel fb' x y) : fb = fb' := by
  apply Vector.ext; intro y hy
  apply Vector.ext; intro x hx
  simpa [Framebuffer.pixel, hx, hy] using h x y hx hy

end Sys2Proof.Machine
end

