-- ==== Sys2Proof/Laws/Memory.lean ====
section
/-! SUPPORT. The laws of memory: read after write, the canonical form kept by every operation, and what the byte
sequences of the memory instructions read and write. -/

namespace Sys2Proof.Machine

variable {c : Config}

@[simp] theorem Memory.read_nil (a : Nat) : Memory.read c [] a = Memory.resetByte c a := rfl

/-- Nothing below the lowest listed address differs from the reset contents. -/
theorem Memory.read_below {m : Memory} {lo a : Nat} (h : Memory.wfFrom c lo m = true) (ha : a < lo) :
    Memory.read c m a = Memory.resetByte c a := by
  cases m with
  | nil => rfl
  | cons e rest =>
    obtain ⟨b, w⟩ := e
    simp only [Memory.wfFrom, Bool.and_eq_true, decide_eq_true_eq] at h
    have h1 : a ≠ b := by omega
    have h2 : a < b := by omega
    simp [Memory.read, h1, h2]

/-- A byte holds what was last written to it (R40, R47). -/
theorem Memory.read_write_same {m : Memory} {lo : Nat} (a : Nat) (w : Byte) (h : Memory.wfFrom c lo m = true) :
    Memory.read c (Memory.write c m a w) a = w := by
  induction m generalizing lo with
  | nil => by_cases hw : w = Memory.resetByte c a <;> simp [Memory.write, Memory.read, hw]
  | cons e rest ih =>
    obtain ⟨b, u⟩ := e
    simp only [Memory.wfFrom, Bool.and_eq_true, decide_eq_true_eq] at h
    by_cases hlt : a < b
    · have hne : a ≠ b := by omega
      by_cases hw : w = Memory.resetByte c a <;> simp [Memory.write, Memory.read, hw, hlt, hne]
    · by_cases heq : a = b
      · subst heq
        by_cases hw : w = Memory.resetByte c a
        · simp [Memory.write, hw, Memory.read_below h.2 (Nat.lt_succ_self a)]
        · simp [Memory.write, Memory.read, hw]
      · simp [Memory.write, Memory.read, hlt, heq, ih h.2]

/-- A write changes exactly one byte (R47). -/
theorem Memory.read_write_ne {m : Memory} {lo a d : Nat} (w : Byte) (h : Memory.wfFrom c lo m = true) (hne : d ≠ a) :
    Memory.read c (Memory.write c m a w) d = Memory.read c m d := by
  induction m generalizing lo with
  | nil => by_cases hw : w = Memory.resetByte c a <;> simp [Memory.write, Memory.read, hw, hne]
  | cons e rest ih =>
    obtain ⟨b, u⟩ := e
    simp only [Memory.wfFrom, Bool.and_eq_true, decide_eq_true_eq] at h
    by_cases hlt : a < b
    · by_cases hw : w = Memory.resetByte c a
      · simp [Memory.write, hw, hlt]
      · by_cases hd : d < a
        · have h1 : d ≠ b := by omega
          have h2 : d < b := by omega
          simp [Memory.write, Memory.read, hw, hlt, hne, hd, h1, h2]
        · simp [Memory.write, Memory.read, hw, hlt, hne, hd]
    · by_cases heq : a = b
      · subst heq
        by_cases hw : w = Memory.resetByte c a
        · by_cases hd : d < a
          · simp [Memory.write, Memory.read, hw, hne, hd, Memory.read_below h.2 (show d < a + 1 by omega)]
          · simp [Memory.write, Memory.read, hw, hne, hd]
        · by_cases hd : d < a <;> simp [Memory.write, Memory.read, hw, hne, hd]
      · by_cases hdb : d = b
        · simp [Memory.write, Memory.read, hlt, heq, hdb]
        · by_cases hd : d < b <;> simp [Memory.write, Memory.read, hlt, heq, hdb, hd, ih h.2]

/-- A write inside memory keeps the canonical form. -/
theorem Memory.wfFrom_write {m : Memory} {lo a : Nat} (w : Byte) (h : Memory.wfFrom c lo m = true) (hlo : lo ≤ a)
    (ha : a < 4096) : Memory.wfFrom c lo (Memory.write c m a w) = true := by
  induction m generalizing lo with
  | nil => by_cases hw : w = Memory.resetByte c a <;> simp [Memory.write, Memory.wfFrom, hw, hlo, ha]
  | cons e rest ih =>
    obtain ⟨b, u⟩ := e
    have h' := h
    simp only [Memory.wfFrom, Bool.and_eq_true, decide_eq_true_eq] at h
    obtain ⟨⟨⟨h1, h2⟩, h3⟩, h4⟩ := h
    by_cases hlt : a < b
    · by_cases hw : w = Memory.resetByte c a
      · simpa [Memory.write, hw, hlt] using h'
      · have hb : a + 1 ≤ b := hlt
        simp [Memory.write, Memory.wfFrom, hw, hlt, hlo, ha, hb, h2, h4]
        simpa using h3
    · by_cases heq : a = b
      · subst heq
        by_cases hw : w = Memory.resetByte c a
        · simp only [Memory.write, hw, lt_irrefl, if_true, if_false]
          cases rest with
          | nil => rfl
          | cons e rest =>
            obtain ⟨d, u'⟩ := e
            simp only [Memory.wfFrom, Bool.and_eq_true, decide_eq_true_eq] at h4 ⊢
            exact ⟨⟨⟨by omega, h4.1.1.2⟩, h4.1.2⟩, h4.2⟩
        · simp [Memory.write, Memory.wfFrom, hw, hlo, ha, h4]
      · have hb : b + 1 ≤ a := by omega
        simp [Memory.write, Memory.wfFrom, hlt, heq, h1, h2, ih h4 hb]
        simpa using h3

/-- A write inside memory keeps the canonical form. -/
theorem Memory.wf_write {m : Memory} {a : Nat} (w : Byte) (h : Memory.wf c m = true) (ha : a < 4096) :
    Memory.wf c (Memory.write c m a w) = true :=
  Memory.wfFrom_write w h (Nat.zero_le a) ha

/-- A run of stores inside memory keeps the canonical form. -/
theorem Memory.wf_writeBytes {m : Memory} {a : Nat} (ws : List Byte) (h : Memory.wf c m = true)
    (ha : a + ws.length ≤ 4096) : Memory.wf c (Memory.writeBytes c m a ws) = true := by
  induction ws generalizing m a with
  | nil => exact h
  | cons w ws ih =>
    simp only [List.length_cons] at ha
    exact ih (Memory.wf_write w h (by omega)) (by omega)

/-- The reset memory is in canonical form. -/
@[simp] theorem Memory.wf_nil : Memory.wf c [] = true := rfl

/-- A run of stores changes no byte outside it (R47, R50). -/
theorem Memory.read_writeBytes_outside {m : Memory} {a d : Nat} (ws : List Byte) (h : Memory.wf c m = true)
    (ha : a + ws.length ≤ 4096) (hd : d < a ∨ a + ws.length ≤ d) :
    Memory.read c (Memory.writeBytes c m a ws) d = Memory.read c m d := by
  induction ws generalizing m a with
  | nil => rfl
  | cons w ws ih =>
    simp only [List.length_cons] at ha hd
    rw [Memory.writeBytes, ih (Memory.wf_write w h (by omega)) (by omega) (by omega)]
    exact Memory.read_write_ne w h (by omega)

/-- A run of stores puts its `k`-th byte at its `k`-th address (R50). -/
theorem Memory.read_writeBytes_inside {m : Memory} {a k : Nat} (ws : List Byte) (h : Memory.wf c m = true)
    (ha : a + ws.length ≤ 4096) (hk : k < ws.length) :
    Memory.read c (Memory.writeBytes c m a ws) (a + k) = ws[k] := by
  induction ws generalizing m a k with
  | nil => simp at hk
  | cons w ws ih =>
    simp only [List.length_cons] at ha hk
    have hw := Memory.wf_write (c := c) w h (show a < 4096 by omega)
    cases k with
    | zero =>
      rw [Memory.writeBytes, Memory.read_writeBytes_outside ws hw (by omega) (by omega)]
      simpa using Memory.read_write_same a w h
    | succ k =>
      have := ih (a := a + 1) (k := k) hw (by omega) (by omega)
      rw [Memory.writeBytes, show a + (k + 1) = a + 1 + k by omega, this]
      rfl

@[simp] theorem Memory.length_readBytes (m : Memory) (a n : Nat) : (Memory.readBytes c m a n).length = n := by
  induction n generalizing a with
  | zero => rfl
  | succ n ih => simp [Memory.readBytes, ih]

/-- The `k`-th byte of a run of reads is the byte at its `k`-th address (R50). -/
theorem Memory.getElem_readBytes (m : Memory) (a n k : Nat) (hk : k < (Memory.readBytes c m a n).length) :
    (Memory.readBytes c m a n)[k] = Memory.read c m (a + k) := by
  induction n generalizing a k with
  | zero => simp [Memory.readBytes] at hk
  | succ n ih =>
    cases k with
    | zero => simp [Memory.readBytes]
    | succ k =>
      simp only [Memory.readBytes, List.getElem_cons_succ]
      rw [ih, show a + 1 + k = a + (k + 1) by omega]

/-- What a bulk load leaves in each register (R146). -/
theorem Registers.getElem_load (m : Memory) (a n : Nat) (v : Registers) (k : Nat) (hk : k < 16) :
    (Registers.load c m a n v)[k] = if k < n then Memory.read c m (a + k) else v[k] := by
  induction n with
  | zero => simp [Registers.load]
  | succ n ih =>
    rw [Registers.load, Vector.getElem_setIfInBounds, ih]
    by_cases hn : n = k
    · simp [hn]
    · have : k < n + 1 ↔ k < n := by omega
      simp [hn, this]

/-- V0 to VX are `X + 1` registers (R145). -/
@[simp] theorem State.length_regsUpTo (s : State) (x : Reg) : (s.regsUpTo x).length = x.val + 1 := by
  simp [State.regsUpTo]

/-- The `k`-th of V0 to VX is register `k` (R145). -/
theorem State.getElem_regsUpTo (s : State) (x r : Reg) (h : r.val < (s.regsUpTo x).length) :
    (s.regsUpTo x)[r.val] = s.reg r := by
  simp [State.regsUpTo, State.reg]

/-! ### Of the parameters, memory reads the font alone -/

theorem Memory.resetByte_font {c d : Config} (h : c.fontTail = d.fontTail) (a : Nat) :
    Memory.resetByte c a = Memory.resetByte d a := by
  simp [Memory.resetByte, h]

theorem Memory.read_font {c d : Config} (h : c.fontTail = d.fontTail) (m : Memory) (a : Nat) :
    Memory.read c m a = Memory.read d m a := by
  induction m with
  | nil => exact Memory.resetByte_font h a
  | cons e rest ih => simp only [Memory.read, Memory.resetByte_font h, ih]

theorem Memory.write_font {c d : Config} (h : c.fontTail = d.fontTail) (m : Memory) (a : Nat) (w : Byte) :
    Memory.write c m a w = Memory.write d m a w := by
  induction m with
  | nil => simp only [Memory.write, Memory.resetByte_font h]
  | cons e rest ih => simp only [Memory.write, Memory.resetByte_font h, ih]

theorem Memory.writeBytes_font {c d : Config} (h : c.fontTail = d.fontTail) (m : Memory) (a : Nat) (ws : List Byte) :
    Memory.writeBytes c m a ws = Memory.writeBytes d m a ws := by
  induction ws generalizing m a with
  | nil => rfl
  | cons w ws ih => rw [Memory.writeBytes, Memory.writeBytes, Memory.write_font h, ih]

theorem Memory.readBytes_font {c d : Config} (h : c.fontTail = d.fontTail) (m : Memory) (a n : Nat) :
    Memory.readBytes c m a n = Memory.readBytes d m a n := by
  induction n generalizing a with
  | zero => rfl
  | succ n ih => rw [Memory.readBytes, Memory.readBytes, Memory.read_font h, ih]

theorem Registers.load_font {c d : Config} (h : c.fontTail = d.fontTail) (m : Memory) (a n : Nat) (v : Registers) :
    Registers.load c m a n v = Registers.load d m a n v := by
  induction n with
  | zero => rfl
  | succ n ih => rw [Registers.load, Registers.load, Memory.read_font h, ih]

/-- What every byte reads as after a run of stores inside memory: the stored byte in the run, the old one outside (R46,
R47, R50). -/
theorem State.readByte_storeBytes (s : State) {base : Nat} (ws : List Byte) (a : Nat)
    (hw : Memory.wf s.config s.mem = true) (hl : base + ws.length ≤ 4096) :
    (s.storeBytes base ws).readByte a =
      if base ≤ a then ws.getD (a - base) (s.readByte a) else s.readByte a := by
  by_cases h : base ≤ a
  · rw [if_pos h, List.getD_eq_getElem?_getD]
    by_cases h2 : a - base < ws.length
    · have := Memory.read_writeBytes_inside ws hw hl h2
      rw [show base + (a - base) = a by omega] at this
      rw [List.getElem?_eq_getElem h2]
      exact this
    · rw [List.getElem?_eq_none (by omega)]
      exact Memory.read_writeBytes_outside ws hw hl (by omega)
  · rw [if_neg h]
    exact Memory.read_writeBytes_outside ws hw hl (by omega)

end Sys2Proof.Machine
end

