-- ==== Sys2Proof/Laws/State.lean ====
section
/-! SUPPORT. One lemma per field per named update of State, and the laws of the register file: later proofs unfold no
record update. -/

namespace Sys2Proof.Machine

/-! ### setReg: `V[r] <- w` -/

@[simp] theorem State.setReg_config (s : State) (r : Reg) (w : Byte) : (s.setReg r w).config = s.config := rfl
@[simp] theorem State.setReg_mem (s : State) (r : Reg) (w : Byte) : (s.setReg r w).mem = s.mem := rfl
@[simp] theorem State.setReg_v (s : State) (r : Reg) (w : Byte) :
    (s.setReg r w).v = s.v.set r w := rfl
@[simp] theorem State.setReg_i (s : State) (r : Reg) (w : Byte) : (s.setReg r w).i = s.i := rfl
@[simp] theorem State.setReg_pc (s : State) (r : Reg) (w : Byte) : (s.setReg r w).pc = s.pc := rfl
@[simp] theorem State.setReg_stack (s : State) (r : Reg) (w : Byte) : (s.setReg r w).stack = s.stack := rfl
@[simp] theorem State.setReg_fb (s : State) (r : Reg) (w : Byte) : (s.setReg r w).fb = s.fb := rfl
@[simp] theorem State.setReg_dt (s : State) (r : Reg) (w : Byte) : (s.setReg r w).dt = s.dt := rfl
@[simp] theorem State.setReg_st (s : State) (r : Reg) (w : Byte) : (s.setReg r w).st = s.st := rfl
@[simp] theorem State.setReg_kw (s : State) (r : Reg) (w : Byte) : (s.setReg r w).kw = s.kw := rfl
@[simp] theorem State.setReg_fault (s : State) (r : Reg) (w : Byte) : (s.setReg r w).fault = s.fault := rfl
@[simp] theorem State.setReg_cycle (s : State) (r : Reg) (w : Byte) : (s.setReg r w).cycle = s.cycle := rfl
@[simp] theorem State.setReg_keys (s : State) (r : Reg) (w : Byte) : (s.setReg r w).keys = s.keys := rfl
@[simp] theorem State.setReg_events (s : State) (r : Reg) (w : Byte) : (s.setReg r w).events = s.events := rfl
@[simp] theorem State.setReg_ports (s : State) (r : Reg) (w : Byte) : (s.setReg r w).ports = s.ports := rfl

/-! ### setFlag: `V[15] <- flag` -/

@[simp] theorem State.setFlag_config (s : State) (b : Bool) : (s.setFlag b).config = s.config := rfl
@[simp] theorem State.setFlag_mem (s : State) (b : Bool) : (s.setFlag b).mem = s.mem := rfl
@[simp] theorem State.setFlag_v (s : State) (b : Bool) :
    (s.setFlag b).v = s.v.set flagReg (flagByte b) := rfl
@[simp] theorem State.setFlag_i (s : State) (b : Bool) : (s.setFlag b).i = s.i := rfl
@[simp] theorem State.setFlag_pc (s : State) (b : Bool) : (s.setFlag b).pc = s.pc := rfl
@[simp] theorem State.setFlag_stack (s : State) (b : Bool) : (s.setFlag b).stack = s.stack := rfl
@[simp] theorem State.setFlag_fb (s : State) (b : Bool) : (s.setFlag b).fb = s.fb := rfl
@[simp] theorem State.setFlag_dt (s : State) (b : Bool) : (s.setFlag b).dt = s.dt := rfl
@[simp] theorem State.setFlag_st (s : State) (b : Bool) : (s.setFlag b).st = s.st := rfl
@[simp] theorem State.setFlag_kw (s : State) (b : Bool) : (s.setFlag b).kw = s.kw := rfl
@[simp] theorem State.setFlag_fault (s : State) (b : Bool) : (s.setFlag b).fault = s.fault := rfl
@[simp] theorem State.setFlag_cycle (s : State) (b : Bool) : (s.setFlag b).cycle = s.cycle := rfl
@[simp] theorem State.setFlag_keys (s : State) (b : Bool) : (s.setFlag b).keys = s.keys := rfl
@[simp] theorem State.setFlag_events (s : State) (b : Bool) : (s.setFlag b).events = s.events := rfl
@[simp] theorem State.setFlag_ports (s : State) (b : Bool) : (s.setFlag b).ports = s.ports := rfl

/-! ### writeResult: result, then flag -/

@[simp] theorem State.writeResult_config (s : State) (x : Reg) (w : Byte) (b : Bool) : (s.writeResult x w b).config = s.config := rfl
@[simp] theorem State.writeResult_mem (s : State) (x : Reg) (w : Byte) (b : Bool) : (s.writeResult x w b).mem = s.mem := rfl
@[simp] theorem State.writeResult_v (s : State) (x : Reg) (w : Byte) (b : Bool) :
    (s.writeResult x w b).v = (s.v.set x w).set flagReg (flagByte b) := rfl
@[simp] theorem State.writeResult_i (s : State) (x : Reg) (w : Byte) (b : Bool) : (s.writeResult x w b).i = s.i := rfl
@[simp] theorem State.writeResult_pc (s : State) (x : Reg) (w : Byte) (b : Bool) : (s.writeResult x w b).pc = s.pc := rfl
@[simp] theorem State.writeResult_stack (s : State) (x : Reg) (w : Byte) (b : Bool) : (s.writeResult x w b).stack = s.stack := rfl
@[simp] theorem State.writeResult_fb (s : State) (x : Reg) (w : Byte) (b : Bool) : (s.writeResult x w b).fb = s.fb := rfl
@[simp] theorem State.writeResult_dt (s : State) (x : Reg) (w : Byte) (b : Bool) : (s.writeResult x w b).dt = s.dt := rfl
@[simp] theorem State.writeResult_st (s : State) (x : Reg) (w : Byte) (b : Bool) : (s.writeResult x w b).st = s.st := rfl
@[simp] theorem State.writeResult_kw (s : State) (x : Reg) (w : Byte) (b : Bool) : (s.writeResult x w b).kw = s.kw := rfl
@[simp] theorem State.writeResult_fault (s : State) (x : Reg) (w : Byte) (b : Bool) : (s.writeResult x w b).fault = s.fault := rfl
@[simp] theorem State.writeResult_cycle (s : State) (x : Reg) (w : Byte) (b : Bool) : (s.writeResult x w b).cycle = s.cycle := rfl
@[simp] theorem State.writeResult_keys (s : State) (x : Reg) (w : Byte) (b : Bool) : (s.writeResult x w b).keys = s.keys := rfl
@[simp] theorem State.writeResult_events (s : State) (x : Reg) (w : Byte) (b : Bool) : (s.writeResult x w b).events = s.events := rfl
@[simp] theorem State.writeResult_ports (s : State) (x : Reg) (w : Byte) (b : Bool) : (s.writeResult x w b).ports = s.ports := rfl

/-! ### storeBytes: stores -/

@[simp] theorem State.storeBytes_config (s : State) (a : Nat) (ws : List Byte) : (s.storeBytes a ws).config = s.config := rfl
@[simp] theorem State.storeBytes_mem (s : State) (a : Nat) (ws : List Byte) :
    (s.storeBytes a ws).mem = Memory.writeBytes s.config s.mem a ws := rfl
@[simp] theorem State.storeBytes_v (s : State) (a : Nat) (ws : List Byte) : (s.storeBytes a ws).v = s.v := rfl
@[simp] theorem State.storeBytes_i (s : State) (a : Nat) (ws : List Byte) : (s.storeBytes a ws).i = s.i := rfl
@[simp] theorem State.storeBytes_pc (s : State) (a : Nat) (ws : List Byte) : (s.storeBytes a ws).pc = s.pc := rfl
@[simp] theorem State.storeBytes_stack (s : State) (a : Nat) (ws : List Byte) : (s.storeBytes a ws).stack = s.stack := rfl
@[simp] theorem State.storeBytes_fb (s : State) (a : Nat) (ws : List Byte) : (s.storeBytes a ws).fb = s.fb := rfl
@[simp] theorem State.storeBytes_dt (s : State) (a : Nat) (ws : List Byte) : (s.storeBytes a ws).dt = s.dt := rfl
@[simp] theorem State.storeBytes_st (s : State) (a : Nat) (ws : List Byte) : (s.storeBytes a ws).st = s.st := rfl
@[simp] theorem State.storeBytes_kw (s : State) (a : Nat) (ws : List Byte) : (s.storeBytes a ws).kw = s.kw := rfl
@[simp] theorem State.storeBytes_fault (s : State) (a : Nat) (ws : List Byte) : (s.storeBytes a ws).fault = s.fault := rfl
@[simp] theorem State.storeBytes_cycle (s : State) (a : Nat) (ws : List Byte) : (s.storeBytes a ws).cycle = s.cycle := rfl
@[simp] theorem State.storeBytes_keys (s : State) (a : Nat) (ws : List Byte) : (s.storeBytes a ws).keys = s.keys := rfl
@[simp] theorem State.storeBytes_events (s : State) (a : Nat) (ws : List Byte) : (s.storeBytes a ws).events = s.events := rfl
@[simp] theorem State.storeBytes_ports (s : State) (a : Nat) (ws : List Byte) : (s.storeBytes a ws).ports = s.ports := rfl

/-! ### advance: the advance of `pc` -/

@[simp] theorem State.advance_config (s : State) : (s.advance).config = s.config := rfl
@[simp] theorem State.advance_mem (s : State) : (s.advance).mem = s.mem := rfl
@[simp] theorem State.advance_v (s : State) : (s.advance).v = s.v := rfl
@[simp] theorem State.advance_i (s : State) : (s.advance).i = s.i := rfl
@[simp] theorem State.advance_pc (s : State) :
    (s.advance).pc = s.pc + 2 := rfl
@[simp] theorem State.advance_stack (s : State) : (s.advance).stack = s.stack := rfl
@[simp] theorem State.advance_fb (s : State) : (s.advance).fb = s.fb := rfl
@[simp] theorem State.advance_dt (s : State) : (s.advance).dt = s.dt := rfl
@[simp] theorem State.advance_st (s : State) : (s.advance).st = s.st := rfl
@[simp] theorem State.advance_kw (s : State) : (s.advance).kw = s.kw := rfl
@[simp] theorem State.advance_fault (s : State) : (s.advance).fault = s.fault := rfl
@[simp] theorem State.advance_cycle (s : State) : (s.advance).cycle = s.cycle := rfl
@[simp] theorem State.advance_keys (s : State) : (s.advance).keys = s.keys := rfl
@[simp] theorem State.advance_events (s : State) : (s.advance).events = s.events := rfl
@[simp] theorem State.advance_ports (s : State) : (s.advance).ports = s.ports := rfl

/-! ### rewind: the rewind of `pc` -/

@[simp] theorem State.rewind_config (s : State) : (s.rewind).config = s.config := rfl
@[simp] theorem State.rewind_mem (s : State) : (s.rewind).mem = s.mem := rfl
@[simp] theorem State.rewind_v (s : State) : (s.rewind).v = s.v := rfl
@[simp] theorem State.rewind_i (s : State) : (s.rewind).i = s.i := rfl
@[simp] theorem State.rewind_pc (s : State) :
    (s.rewind).pc = s.pc - 2 := rfl
@[simp] theorem State.rewind_stack (s : State) : (s.rewind).stack = s.stack := rfl
@[simp] theorem State.rewind_fb (s : State) : (s.rewind).fb = s.fb := rfl
@[simp] theorem State.rewind_dt (s : State) : (s.rewind).dt = s.dt := rfl
@[simp] theorem State.rewind_st (s : State) : (s.rewind).st = s.st := rfl
@[simp] theorem State.rewind_kw (s : State) : (s.rewind).kw = s.kw := rfl
@[simp] theorem State.rewind_fault (s : State) : (s.rewind).fault = s.fault := rfl
@[simp] theorem State.rewind_cycle (s : State) : (s.rewind).cycle = s.cycle := rfl
@[simp] theorem State.rewind_keys (s : State) : (s.rewind).keys = s.keys := rfl
@[simp] theorem State.rewind_events (s : State) : (s.rewind).events = s.events := rfl
@[simp] theorem State.rewind_ports (s : State) : (s.rewind).ports = s.ports := rfl

/-! ### skipIf: the skip -/

@[simp] theorem State.skipIf_config (s : State) (b : Bool) : (s.skipIf b).config = s.config := rfl
@[simp] theorem State.skipIf_mem (s : State) (b : Bool) : (s.skipIf b).mem = s.mem := rfl
@[simp] theorem State.skipIf_v (s : State) (b : Bool) : (s.skipIf b).v = s.v := rfl
@[simp] theorem State.skipIf_i (s : State) (b : Bool) : (s.skipIf b).i = s.i := rfl
@[simp] theorem State.skipIf_pc (s : State) (b : Bool) :
    (s.skipIf b).pc = if b then s.pc + 2 else s.pc := rfl
@[simp] theorem State.skipIf_stack (s : State) (b : Bool) : (s.skipIf b).stack = s.stack := rfl
@[simp] theorem State.skipIf_fb (s : State) (b : Bool) : (s.skipIf b).fb = s.fb := rfl
@[simp] theorem State.skipIf_dt (s : State) (b : Bool) : (s.skipIf b).dt = s.dt := rfl
@[simp] theorem State.skipIf_st (s : State) (b : Bool) : (s.skipIf b).st = s.st := rfl
@[simp] theorem State.skipIf_kw (s : State) (b : Bool) : (s.skipIf b).kw = s.kw := rfl
@[simp] theorem State.skipIf_fault (s : State) (b : Bool) : (s.skipIf b).fault = s.fault := rfl
@[simp] theorem State.skipIf_cycle (s : State) (b : Bool) : (s.skipIf b).cycle = s.cycle := rfl
@[simp] theorem State.skipIf_keys (s : State) (b : Bool) : (s.skipIf b).keys = s.keys := rfl
@[simp] theorem State.skipIf_events (s : State) (b : Bool) : (s.skipIf b).events = s.events := rfl
@[simp] theorem State.skipIf_ports (s : State) (b : Bool) : (s.skipIf b).ports = s.ports := rfl

/-! ### emit: events -/

@[simp] theorem State.emit_config (s : State) (e : Event) : (s.emit e).config = s.config := rfl
@[simp] theorem State.emit_mem (s : State) (e : Event) : (s.emit e).mem = s.mem := rfl
@[simp] theorem State.emit_v (s : State) (e : Event) : (s.emit e).v = s.v := rfl
@[simp] theorem State.emit_i (s : State) (e : Event) : (s.emit e).i = s.i := rfl
@[simp] theorem State.emit_pc (s : State) (e : Event) : (s.emit e).pc = s.pc := rfl
@[simp] theorem State.emit_stack (s : State) (e : Event) : (s.emit e).stack = s.stack := rfl
@[simp] theorem State.emit_fb (s : State) (e : Event) : (s.emit e).fb = s.fb := rfl
@[simp] theorem State.emit_dt (s : State) (e : Event) : (s.emit e).dt = s.dt := rfl
@[simp] theorem State.emit_st (s : State) (e : Event) : (s.emit e).st = s.st := rfl
@[simp] theorem State.emit_kw (s : State) (e : Event) : (s.emit e).kw = s.kw := rfl
@[simp] theorem State.emit_fault (s : State) (e : Event) : (s.emit e).fault = s.fault := rfl
@[simp] theorem State.emit_cycle (s : State) (e : Event) : (s.emit e).cycle = s.cycle := rfl
@[simp] theorem State.emit_keys (s : State) (e : Event) : (s.emit e).keys = s.keys := rfl
@[simp] theorem State.emit_events (s : State) (e : Event) :
    (s.emit e).events = s.events ++ [e] := rfl
@[simp] theorem State.emit_ports (s : State) (e : Event) : (s.emit e).ports = s.ports := rfl

/-! ### timerStep: the timer step -/

@[simp] theorem State.timerStep_config (s : State) : (s.timerStep).config = s.config := rfl
@[simp] theorem State.timerStep_mem (s : State) : (s.timerStep).mem = s.mem := rfl
@[simp] theorem State.timerStep_v (s : State) : (s.timerStep).v = s.v := rfl
@[simp] theorem State.timerStep_i (s : State) : (s.timerStep).i = s.i := rfl
@[simp] theorem State.timerStep_pc (s : State) : (s.timerStep).pc = s.pc := rfl
@[simp] theorem State.timerStep_stack (s : State) : (s.timerStep).stack = s.stack := rfl
@[simp] theorem State.timerStep_fb (s : State) : (s.timerStep).fb = s.fb := rfl
@[simp] theorem State.timerStep_dt (s : State) :
    (s.timerStep).dt = if s.dt = 0 then s.dt else s.dt - 1 := rfl
@[simp] theorem State.timerStep_st (s : State) :
    (s.timerStep).st = if s.st = 0 then s.st else s.st - 1 := rfl
@[simp] theorem State.timerStep_kw (s : State) : (s.timerStep).kw = s.kw := rfl
@[simp] theorem State.timerStep_fault (s : State) : (s.timerStep).fault = s.fault := rfl
@[simp] theorem State.timerStep_cycle (s : State) : (s.timerStep).cycle = s.cycle := rfl
@[simp] theorem State.timerStep_keys (s : State) : (s.timerStep).keys = s.keys := rfl
@[simp] theorem State.timerStep_events (s : State) :
    (s.timerStep).events = if s.st = 1 then s.events ++ [.beep] else s.events := rfl
@[simp] theorem State.timerStep_ports (s : State) : (s.timerStep).ports = s.ports := rfl

/-! ### reboot: reset -/

@[simp] theorem State.reboot_config (s : State) : (s.reboot).config = s.config := rfl
@[simp] theorem State.reboot_mem (s : State) :
    (s.reboot).mem = [] := rfl
@[simp] theorem State.reboot_v (s : State) :
    (s.reboot).v = Vector.replicate 16 0x00 := rfl
@[simp] theorem State.reboot_i (s : State) :
    (s.reboot).i = 0x0000 := rfl
@[simp] theorem State.reboot_pc (s : State) :
    (s.reboot).pc = 0x0200 := rfl
@[simp] theorem State.reboot_stack (s : State) :
    (s.reboot).stack = [] := rfl
@[simp] theorem State.reboot_fb (s : State) :
    (s.reboot).fb = Framebuffer.clear := rfl
@[simp] theorem State.reboot_dt (s : State) :
    (s.reboot).dt = 0x00 := rfl
@[simp] theorem State.reboot_st (s : State) :
    (s.reboot).st = 0x00 := rfl
@[simp] theorem State.reboot_kw (s : State) :
    (s.reboot).kw = .running := rfl
@[simp] theorem State.reboot_fault (s : State) :
    (s.reboot).fault = none := rfl
@[simp] theorem State.reboot_cycle (s : State) :
    (s.reboot).cycle = 0 := rfl
@[simp] theorem State.reboot_keys (s : State) :
    (s.reboot).keys = 0 := rfl
@[simp] theorem State.reboot_events (s : State) :
    (s.reboot).events = [] := rfl
@[simp] theorem State.reboot_ports (s : State) : (s.reboot).ports = s.ports := rfl

/-! ### The tick driver -/

@[simp] theorem State.beginTick_config (s : State) : s.beginTick.config = s.config := by
  unfold State.beginTick; split <;> rfl
@[simp] theorem State.beginTick_mem (s : State) : s.beginTick.mem = s.mem := by
  unfold State.beginTick; split <;> rfl
@[simp] theorem State.beginTick_v (s : State) : s.beginTick.v = s.v := by
  unfold State.beginTick; split <;> rfl
@[simp] theorem State.beginTick_i (s : State) : s.beginTick.i = s.i := by
  unfold State.beginTick; split <;> rfl
@[simp] theorem State.beginTick_pc (s : State) : s.beginTick.pc = s.pc := by
  unfold State.beginTick; split <;> rfl
@[simp] theorem State.beginTick_stack (s : State) : s.beginTick.stack = s.stack := by
  unfold State.beginTick; split <;> rfl
@[simp] theorem State.beginTick_fb (s : State) : s.beginTick.fb = s.fb := by
  unfold State.beginTick; split <;> rfl
@[simp] theorem State.beginTick_dt (s : State) : s.beginTick.dt = s.dt := by
  unfold State.beginTick; split <;> rfl
@[simp] theorem State.beginTick_st (s : State) : s.beginTick.st = s.st := by
  unfold State.beginTick; split <;> rfl
@[simp] theorem State.beginTick_kw (s : State) : s.beginTick.kw = s.kw := by
  unfold State.beginTick; split <;> rfl
@[simp] theorem State.beginTick_fault (s : State) : s.beginTick.fault = s.fault := by
  unfold State.beginTick; split <;> rfl
@[simp] theorem State.beginTick_cycle (s : State) : s.beginTick.cycle = s.cycle := by
  unfold State.beginTick; split <;> rfl

theorem State.beginTick_of_zero (s : State) (h : s.cycle = 0) :
    s.beginTick = { s with keys := s.ports.nextKeys.1, ports := s.ports.nextKeys.2, events := [] } := by
  simp [State.beginTick, h]

theorem State.beginTick_of_pos (s : State) (h : s.cycle ≠ 0) : s.beginTick = s := by
  simp [State.beginTick, h]

@[simp] theorem State.startCycle_config (s : State) : s.startCycle.config = s.config := by simp [State.startCycle]
@[simp] theorem State.startCycle_mem (s : State) : s.startCycle.mem = s.mem := by simp [State.startCycle]
@[simp] theorem State.startCycle_v (s : State) : s.startCycle.v = s.v := by simp [State.startCycle]
@[simp] theorem State.startCycle_i (s : State) : s.startCycle.i = s.i := by simp [State.startCycle]
@[simp] theorem State.startCycle_pc (s : State) : s.startCycle.pc = s.pc := by simp [State.startCycle]
@[simp] theorem State.startCycle_stack (s : State) : s.startCycle.stack = s.stack := by simp [State.startCycle]
@[simp] theorem State.startCycle_fb (s : State) : s.startCycle.fb = s.fb := by simp [State.startCycle]
@[simp] theorem State.startCycle_dt (s : State) : s.startCycle.dt = s.dt := by simp [State.startCycle]
@[simp] theorem State.startCycle_st (s : State) : s.startCycle.st = s.st := by simp [State.startCycle]
@[simp] theorem State.startCycle_kw (s : State) : s.startCycle.kw = s.kw := by simp [State.startCycle]
@[simp] theorem State.startCycle_fault (s : State) : s.startCycle.fault = s.fault := by simp [State.startCycle]
@[simp] theorem State.startCycle_cycle (s : State) : s.startCycle.cycle = s.cycle + 1 := rfl
@[simp] theorem State.startCycle_keys (s : State) : s.startCycle.keys = s.beginTick.keys := rfl
@[simp] theorem State.startCycle_events (s : State) : s.startCycle.events = s.beginTick.events := rfl
@[simp] theorem State.startCycle_ports (s : State) : s.startCycle.ports = s.beginTick.ports := rfl
@[simp] theorem State.endTick_config (s : State) : s.endTick.config = s.config := by simp [State.endTick]
@[simp] theorem State.endTick_mem (s : State) : s.endTick.mem = s.mem := by simp [State.endTick]
@[simp] theorem State.endTick_v (s : State) : s.endTick.v = s.v := by simp [State.endTick]
@[simp] theorem State.endTick_i (s : State) : s.endTick.i = s.i := by simp [State.endTick]
@[simp] theorem State.endTick_pc (s : State) : s.endTick.pc = s.pc := by simp [State.endTick]
@[simp] theorem State.endTick_stack (s : State) : s.endTick.stack = s.stack := by simp [State.endTick]
@[simp] theorem State.endTick_fb (s : State) : s.endTick.fb = s.fb := by simp [State.endTick]
@[simp] theorem State.endTick_dt (s : State) :
    s.endTick.dt = if s.dt = 0 then s.dt else s.dt - 1 := by simp [State.endTick]
@[simp] theorem State.endTick_st (s : State) :
    s.endTick.st = if s.st = 0 then s.st else s.st - 1 := by simp [State.endTick]
@[simp] theorem State.endTick_kw (s : State) : s.endTick.kw = s.kw := by simp [State.endTick]
@[simp] theorem State.endTick_fault (s : State) : s.endTick.fault = s.fault := by simp [State.endTick]
@[simp] theorem State.endTick_cycle (s : State) : s.endTick.cycle = 0 := rfl
@[simp] theorem State.endTick_keys (s : State) : s.endTick.keys = s.beginTick.keys := rfl
@[simp] theorem State.endTick_events (s : State) :
    s.endTick.events = if s.st = 1 then s.beginTick.events ++ [.beep] else s.beginTick.events := by
  simp [State.endTick]
@[simp] theorem State.endTick_ports (s : State) : s.endTick.ports = s.beginTick.ports := rfl

/-! ### The register file -/

@[simp] theorem State.reg_setReg_same (s : State) (r : Reg) (w : Byte) : (s.setReg r w).reg r = w := by
  simp [State.reg]

theorem State.reg_setReg_ne (s : State) {r q : Reg} (w : Byte) (h : q ≠ r) : (s.setReg r w).reg q = s.reg q := by
  have hv : r.val ≠ q.val := fun e => h (Fin.ext e.symm)
  simp [State.reg, Vector.getElem_set_ne, hv]

@[simp] theorem State.reg_setFlag_same (s : State) (b : Bool) : (s.setFlag b).reg 15 = flagByte b :=
  State.reg_setReg_same s flagReg (flagByte b)

theorem State.reg_setFlag_ne (s : State) {q : Reg} (b : Bool) (h : q ≠ 15) : (s.setFlag b).reg q = s.reg q :=
  State.reg_setReg_ne s (flagByte b) h

@[simp] theorem State.reg_writeResult_flag (s : State) (x : Reg) (w : Byte) (b : Bool) :
    (s.writeResult x w b).reg 15 = flagByte b :=
  State.reg_setFlag_same (s.setReg x w) b

theorem State.reg_writeResult_dest (s : State) {x : Reg} (w : Byte) (b : Bool) (h : x ≠ 15) :
    (s.writeResult x w b).reg x = w :=
  (State.reg_setFlag_ne (s.setReg x w) b h).trans (State.reg_setReg_same s x w)

theorem State.reg_writeResult_ne (s : State) {x q : Reg} (w : Byte) (b : Bool) (hx : q ≠ x) (hf : q ≠ 15) :
    (s.writeResult x w b).reg q = s.reg q :=
  (State.reg_setFlag_ne (s.setReg x w) b hf).trans (State.reg_setReg_ne s w hx)

/-- A register is read from the register file alone. -/
theorem State.reg_congr {s t : State} (h : t.v = s.v) (r : Reg) : t.reg r = s.reg r := by
  simp [State.reg, h]

/-- The advance and the rewind of `pc` undo each other (R84). -/
@[simp] theorem State.rewind_advance (s : State) : s.advance.rewind = s := by
  simp [State.advance, State.rewind]

/-! ### Taking a fault (R204) -/

/-- Taking a fault answers a next state that differs in the latch alone (R204). -/
theorem State.raise_eq (s : State) (k : FaultKind) (a : Word) (op : Option Word) :
    s.raise k a op = .next { s with fault := some { kind := k, address := a, opcode := op } } := rfl

/-- The fault of an I-relative access answers a next state that differs in the latch alone (R203 (a)). -/
theorem State.raiseOutOfBounds_eq (s : State) (op : Word) :
    s.raiseOutOfBounds op = .next { s with
      fault := some ⟨.outOfBoundsMemoryAccess, s.outOfBoundsAddress, some op⟩ } := rfl

/-- The recorded address is max(I, 0x1000) (R48). -/
theorem State.outOfBoundsAddress_toNat (s : State) : s.outOfBoundsAddress.toNat = max s.i.toNat 0x1000 := by
  unfold State.outOfBoundsAddress; split
  · simp; omega
  · omega

/-- The address a fetch fault records is outside memory (R49). -/
theorem State.fetchFaultAddress_toNat (s : State) : s.fetchFaultAddress.toNat = max s.pc.toNat 0x1000 := by
  unfold State.fetchFaultAddress; split
  · simp; omega
  · omega

/-! ### The codes (R200) -/

theorem FaultKind.code_ne_zero (k : FaultKind) : k.code ≠ 0 := by
  cases k <;> decide

/-- The latch shows its kind's code. -/
theorem State.faultCode_of_some {s : State} {r : FaultRecord} (h : s.fault = some r) : s.faultCode = r.kind.code := by
  simp [State.faultCode, h]

/-- The latch shows 0 with no fault. -/
theorem State.faultCode_of_none {s : State} (h : s.fault = none) : s.faultCode = 0 := by
  simp [State.faultCode, h]

@[simp] theorem LoadResult.code_ok (s : State) : (LoadResult.ok s).code = none := rfl
@[simp] theorem LoadResult.code_oversizedCartridge : LoadResult.oversizedCartridge.code = some 5 := rfl
@[simp] theorem LoadResult.code_noMove : LoadResult.noMove.code = none := rfl

end Sys2Proof.Machine
end

