-- ==== Sys2Proof/Laws/Exec.lean ====
section
/-! SUPPORT. What the meanings can do: each answers a next state, the faulting ones in one of two ways, and none looks
at the position of the tick. -/

namespace Sys2Proof.Machine

/-! ## The two ways of the instructions that can fault -/

/-- RET pops, or takes its fault. -/
theorem execRet_cases (ign : Nibble) (s : State) :
    (∃ a rest, s.stack = a :: rest ∧ execRet ign s = .next { s with pc := a, stack := rest }) ∨
    (s.stack = [] ∧ execRet ign s = .next { s with
      fault := some ⟨.stackUnderflow, s.instrAddress, some (encode (.ret ign))⟩ }) := by
  cases h : s.stack with
  | nil => exact .inr ⟨rfl, by simp [execRet, h, State.raise]⟩
  | cons a rest => exact .inl ⟨a, rest, rfl, by simp [execRet, h]⟩

/-- CALL pushes, or takes its fault. -/
theorem execCall_cases (nnn : Addr12) (s : State) :
    (s.sp < 16 ∧ execCall nnn s = .next { s with pc := immAddress nnn, stack := s.pc :: s.stack }) ∨
    (16 ≤ s.sp ∧ execCall nnn s = .next { s with
      fault := some ⟨.stackOverflow, s.instrAddress, some (encode (.call nnn))⟩ }) := by
  by_cases h : s.sp < 16
  · exact .inl ⟨h, by simp [execCall, h]⟩
  · exact .inr ⟨by omega, by simp [execCall, h, State.raise]⟩

/-- LD B stores its digits, or takes its fault. -/
theorem execLdB_cases (x : Reg) (s : State) :
    (s.i.toNat + 2 ≤ 0xFFF ∧ execLdB x s = .next (s.storeBytes s.i.toNat (bcdDigits (s.reg x)))) ∨
    (0xFFF < s.i.toNat + 2 ∧ execLdB x s = .next { s with
      fault := some ⟨.outOfBoundsMemoryAccess, s.outOfBoundsAddress, some (encode (.ldB x))⟩ }) := by
  by_cases h : s.i.toNat + 2 ≤ 0xFFF
  · exact .inl ⟨h, by simp [execLdB, State.inBounds, State.base, h]⟩
  · exact .inr ⟨by omega, by simp [execLdB, State.inBounds, State.base, h, State.raiseOutOfBounds, State.raise]⟩

/-- LD [I] stores its registers, or takes its fault. -/
theorem execStoreRegs_cases (x : Reg) (s : State) :
    (s.i.toNat + x.val ≤ 0xFFF ∧ execStoreRegs x s = .next (s.storeBytes s.i.toNat (s.regsUpTo x))) ∨
    (0xFFF < s.i.toNat + x.val ∧ execStoreRegs x s = .next { s with
      fault := some ⟨.outOfBoundsMemoryAccess, s.outOfBoundsAddress, some (encode (.storeRegs x))⟩ }) := by
  by_cases h : s.i.toNat + x.val ≤ 0xFFF
  · exact .inl ⟨h, by simp [execStoreRegs, State.inBounds, State.base, h]⟩
  · exact .inr ⟨by omega, by
      simp [execStoreRegs, State.inBounds, State.base, h, State.raiseOutOfBounds, State.raise]⟩

/-- LD Vx, [I] loads its registers, or takes its fault. -/
theorem execLoadRegs_cases (x : Reg) (s : State) :
    (s.i.toNat + x.val ≤ 0xFFF ∧ execLoadRegs x s = .next { s with
      v := Registers.load s.config s.mem s.i.toNat (x.val + 1) s.v }) ∨
    (0xFFF < s.i.toNat + x.val ∧ execLoadRegs x s = .next { s with
      fault := some ⟨.outOfBoundsMemoryAccess, s.outOfBoundsAddress, some (encode (.loadRegs x))⟩ }) := by
  by_cases h : s.i.toNat + x.val ≤ 0xFFF
  · exact .inl ⟨h, by simp [execLoadRegs, State.inBounds, State.base, h]⟩
  · exact .inr ⟨by omega, by
      simp [execLoadRegs, State.inBounds, State.base, h, State.raiseOutOfBounds, State.raise]⟩

/-- DRW draws, or takes its fault. -/
theorem execDrw_cases (x y : Reg) (n : Nat) (s : State) :
    ((n = 0 ∨ s.i.toNat + n - 1 ≤ 0xFFF) ∧ execDrw x y n s = .next { s with
      fb := (s.drawn x y n).1, v := s.v.set flagReg (flagByte (s.drawn x y n).2) }) ∨
    ((n ≠ 0 ∧ 0xFFF < s.i.toNat + n - 1) ∧ execDrw x y n s = .next { s with
      fault := some ⟨.outOfBoundsMemoryAccess, s.outOfBoundsAddress, some (encode (.drw x y n))⟩ }) := by
  by_cases h0 : n = 0
  · exact .inl ⟨.inl h0, by simp [execDrw, State.spriteInBounds, h0, State.setFlag, State.setReg]⟩
  · have hb : s.spriteInBounds n = decide (s.i.toNat + n - 1 ≤ 0xFFF) := by
      have : s.i.toNat + (n - 1) = s.i.toNat + n - 1 := by omega
      simp [State.spriteInBounds, State.inBounds, State.base, h0, this]
    by_cases h : s.i.toNat + n - 1 ≤ 0xFFF
    · exact .inl ⟨.inr h, by simp [execDrw, hb, h, State.setFlag, State.setReg]⟩
    · exact .inr ⟨⟨h0, by omega⟩, by simp [execDrw, hb, h, State.raiseOutOfBounds, State.raise]⟩

/-- SKP skips or not, or takes its fault. -/
theorem execSkp_cases (x : Reg) (s : State) :
    ((s.reg x).toNat ≤ 15 ∧ execSkp x s = .next (s.skipIf (s.keys.getLsbD (s.reg x).toNat))) ∨
    (15 < (s.reg x).toNat ∧ execSkp x s = .next { s with
      fault := some ⟨.badKeyIndex, s.instrAddress, some (encode (.skp x))⟩ }) := by
  by_cases h : (s.reg x).toNat ≤ 15
  · exact .inl ⟨h, by simp [execSkp, h, State.key]⟩
  · exact .inr ⟨by omega, by simp [execSkp, h, State.raise]⟩

/-- SKNP skips or not, or takes its fault. -/
theorem execSknp_cases (x : Reg) (s : State) :
    ((s.reg x).toNat ≤ 15 ∧ execSknp x s = .next (s.skipIf (!s.keys.getLsbD (s.reg x).toNat))) ∨
    (15 < (s.reg x).toNat ∧ execSknp x s = .next { s with
      fault := some ⟨.badKeyIndex, s.instrAddress, some (encode (.sknp x))⟩ }) := by
  by_cases h : (s.reg x).toNat ≤ 15
  · exact .inl ⟨h, by simp [execSknp, h, State.key]⟩
  · exact .inr ⟨by omega, by simp [execSknp, h, State.raise]⟩

/-! ## Every instruction answers a next state -/

/-- No instruction stops the machine: a fatal fault is a next state with the latch set (R204). -/
theorem exec_next (i : Instr) (s : State) : ∃ t, exec i s = .next t := by
  cases i with
  | ret ign =>
    obtain ⟨a, rest, -, h⟩ | ⟨-, h⟩ := execRet_cases ign s
    · exact ⟨_, h⟩
    · exact ⟨_, h⟩
  | call nnn => obtain ⟨-, h⟩ | ⟨-, h⟩ := execCall_cases nnn s <;> exact ⟨_, h⟩
  | ldB x => obtain ⟨-, h⟩ | ⟨-, h⟩ := execLdB_cases x s <;> exact ⟨_, h⟩
  | storeRegs x => obtain ⟨-, h⟩ | ⟨-, h⟩ := execStoreRegs_cases x s <;> exact ⟨_, h⟩
  | loadRegs x => obtain ⟨-, h⟩ | ⟨-, h⟩ := execLoadRegs_cases x s <;> exact ⟨_, h⟩
  | drw x y n => obtain ⟨-, h⟩ | ⟨-, h⟩ := execDrw_cases x y n s <;> exact ⟨_, h⟩
  | skp x => obtain ⟨-, h⟩ | ⟨-, h⟩ := execSkp_cases x s <;> exact ⟨_, h⟩
  | sknp x => obtain ⟨-, h⟩ | ⟨-, h⟩ := execSknp_cases x s <;> exact ⟨_, h⟩
  | _ => exact ⟨_, rfl⟩

/-- The sprite rows a draw reads, byte by byte. -/
theorem State.readBytes_eq (s : State) (a n : Nat) :
    Memory.readBytes s.config s.mem a n = (List.range n).map fun k => s.readByte (a + k) := by
  apply List.ext_getElem
  · simp
  · intro k h1 h2
    simp [Memory.getElem_readBytes, State.readByte]

/-- The position of the tick is the driver's alone: changing it before an instruction changes it after, and nothing
else. -/
theorem exec_withCycle (i : Instr) (s t : State) (c : Nat) (h : exec i s = .next t) :
    exec i { s with cycle := c } = .next { t with cycle := c } := by
  cases i with
  | ret ign =>
    obtain ⟨a, rest, hs, h'⟩ | ⟨hs, h'⟩ := execRet_cases ign s <;> rw [exec, h'] at h <;> cases h <;>
      obtain ⟨b, rest', hs', h''⟩ | ⟨hs', h''⟩ := execRet_cases ign { s with cycle := c }
    · have : a :: rest = b :: rest' := hs.symm.trans hs'
      cases this; exact h''
    · exact absurd (hs.symm.trans hs') (by simp)
    · exact absurd (hs.symm.trans hs') (by simp)
    · exact h''
  | call nnn =>
    obtain ⟨hs, h'⟩ | ⟨hs, h'⟩ := execCall_cases nnn s <;> rw [exec, h'] at h <;> cases h <;>
      obtain ⟨hs', h''⟩ | ⟨hs', h''⟩ := execCall_cases nnn { s with cycle := c }
    · exact h''
    · exact absurd hs (Nat.not_lt.mpr hs')
    · exact absurd hs' (Nat.not_lt.mpr hs)
    · exact h''
  | ldB x =>
    obtain ⟨hs, h'⟩ | ⟨hs, h'⟩ := execLdB_cases x s <;> rw [exec, h'] at h <;> cases h <;>
      obtain ⟨hs', h''⟩ | ⟨hs', h''⟩ := execLdB_cases x { s with cycle := c }
    · exact h''
    · exact absurd hs (Nat.not_le.mpr hs')
    · exact absurd hs' (Nat.not_le.mpr hs)
    · exact h''
  | storeRegs x =>
    obtain ⟨hs, h'⟩ | ⟨hs, h'⟩ := execStoreRegs_cases x s <;> rw [exec, h'] at h <;> cases h <;>
      obtain ⟨hs', h''⟩ | ⟨hs', h''⟩ := execStoreRegs_cases x { s with cycle := c }
    · exact h''
    · exact absurd hs (Nat.not_le.mpr hs')
    · exact absurd hs' (Nat.not_le.mpr hs)
    · exact h''
  | loadRegs x =>
    obtain ⟨hs, h'⟩ | ⟨hs, h'⟩ := execLoadRegs_cases x s <;> rw [exec, h'] at h <;> cases h <;>
      obtain ⟨hs', h''⟩ | ⟨hs', h''⟩ := execLoadRegs_cases x { s with cycle := c }
    · exact h''
    · exact absurd hs (Nat.not_le.mpr hs')
    · exact absurd hs' (Nat.not_le.mpr hs)
    · exact h''
  | drw x y n =>
    obtain ⟨hs, h'⟩ | ⟨hs, h'⟩ := execDrw_cases x y n s <;> rw [exec, h'] at h <;> cases h <;>
      obtain ⟨hs', h''⟩ | ⟨hs', h''⟩ := execDrw_cases x y n { s with cycle := c }
    · exact h''
    · exact absurd hs (not_or.mpr ⟨hs'.1, Nat.not_le.mpr hs'.2⟩)
    · exact absurd hs' (not_or.mpr ⟨hs.1, Nat.not_le.mpr hs.2⟩)
    · exact h''
  | skp x =>
    obtain ⟨hs, h'⟩ | ⟨hs, h'⟩ := execSkp_cases x s <;> rw [exec, h'] at h <;> cases h <;>
      obtain ⟨hs', h''⟩ | ⟨hs', h''⟩ := execSkp_cases x { s with cycle := c }
    · exact h''
    · exact absurd hs (Nat.not_le.mpr hs')
    · exact absurd hs' (Nat.not_le.mpr hs)
    · exact h''
  | sknp x =>
    obtain ⟨hs, h'⟩ | ⟨hs, h'⟩ := execSknp_cases x s <;> rw [exec, h'] at h <;> cases h <;>
      obtain ⟨hs', h''⟩ | ⟨hs', h''⟩ := execSknp_cases x { s with cycle := c }
    · exact h''
    · exact absurd hs (Nat.not_le.mpr hs')
    · exact absurd hs' (Nat.not_le.mpr hs)
    · exact h''
  | _ => cases h; rfl

end Sys2Proof.Machine
end

