-- ==== Sys2Proof/Laws/PerInstr.lean ====
section
/-! SUPPORT. The law of LAWS.json's family RoundTrip: decoding the encoded word of a well-formed instruction gives the
instruction back, one lemma per constructor (spec/30_encoding.md R61, R64, R66). -/

namespace Sys2Proof.Laws.RoundTrip

/-- The word of a well-formed instruction decodes to the instruction, every operand at its value (R61, R64). -/
def Statement (i : Instr) : Prop := i.wellFormed = true → decodeWord (encode i) = some i

theorem cls (ign : Nibble) : Statement (.cls ign) := by
  intro _; simp [encode, decodeWord]

theorem ret (ign : Nibble) : Statement (.ret ign) := by
  intro _; simp [encode, decodeWord]

theorem jp (nnn : Addr12) : Statement (.jp nnn) := by
  intro _; simp [encode, decodeWord]

theorem call (nnn : Addr12) : Statement (.call nnn) := by
  intro _; simp [encode, decodeWord]

theorem seImm (x : Reg) (nn : Byte) : Statement (.seImm x nn) := by
  intro _; simp [encode, decodeWord]

theorem sneImm (x : Reg) (nn : Byte) : Statement (.sneImm x nn) := by
  intro _; simp [encode, decodeWord]

theorem seReg (x : Reg) (y : Reg) : Statement (.seReg x y) := by
  intro _; simp [encode, decodeWord]

theorem ldImm (x : Reg) (nn : Byte) : Statement (.ldImm x nn) := by
  intro _; simp [encode, decodeWord]

theorem addImm (x : Reg) (nn : Byte) : Statement (.addImm x nn) := by
  intro _; simp [encode, decodeWord]

theorem ldReg (x : Reg) (y : Reg) : Statement (.ldReg x y) := by
  intro _; simp [encode, decodeWord, decodeAlu]

theorem orReg (x : Reg) (y : Reg) : Statement (.orReg x y) := by
  intro _; simp [encode, decodeWord, decodeAlu]

theorem andReg (x : Reg) (y : Reg) : Statement (.andReg x y) := by
  intro _; simp [encode, decodeWord, decodeAlu]

theorem xorReg (x : Reg) (y : Reg) : Statement (.xorReg x y) := by
  intro _; simp [encode, decodeWord, decodeAlu]

theorem addReg (x : Reg) (y : Reg) : Statement (.addReg x y) := by
  intro _; simp [encode, decodeWord, decodeAlu]

theorem subReg (x : Reg) (y : Reg) : Statement (.subReg x y) := by
  intro _; simp [encode, decodeWord, decodeAlu]

theorem shr (x : Reg) (y : Reg) : Statement (.shr x y) := by
  intro _; simp [encode, decodeWord, decodeAlu]

theorem subnReg (x : Reg) (y : Reg) : Statement (.subnReg x y) := by
  intro _; simp [encode, decodeWord, decodeAlu]

theorem shl (x : Reg) (y : Reg) : Statement (.shl x y) := by
  intro _; simp [encode, decodeWord, decodeAlu]

theorem sneReg (x : Reg) (y : Reg) : Statement (.sneReg x y) := by
  intro _; simp [encode, decodeWord]

theorem ldI (nnn : Addr12) : Statement (.ldI nnn) := by
  intro _; simp [encode, decodeWord]

theorem jpV0 (nnn : Addr12) : Statement (.jpV0 nnn) := by
  intro _; simp [encode, decodeWord]

theorem rnd (x : Reg) (nn : Byte) : Statement (.rnd x nn) := by
  intro _; simp [encode, decodeWord]

theorem drw (x : Reg) (y : Reg) (n : Nat) : Statement (.drw x y n) := by
  intro h
  have hn : n % 16 = n := Nat.mod_eq_of_lt (by simp [Instr.wellFormed] at h; omega)
  simp [encode, decodeWord, hn]

theorem skp (x : Reg) : Statement (.skp x) := by
  intro _; simp [encode, decodeWord]

theorem sknp (x : Reg) : Statement (.sknp x) := by
  intro _; simp [encode, decodeWord]

theorem ldVxDt (x : Reg) : Statement (.ldVxDt x) := by
  intro _; simp [encode, decodeWord, decodeF]

theorem ldVxK (x : Reg) : Statement (.ldVxK x) := by
  intro _; simp [encode, decodeWord, decodeF]

theorem ldDtVx (x : Reg) : Statement (.ldDtVx x) := by
  intro _; simp [encode, decodeWord, decodeF]

theorem ldStVx (x : Reg) : Statement (.ldStVx x) := by
  intro _; simp [encode, decodeWord, decodeF]

theorem addI (x : Reg) : Statement (.addI x) := by
  intro _; simp [encode, decodeWord, decodeF]

theorem ldF (x : Reg) : Statement (.ldF x) := by
  intro _; simp [encode, decodeWord, decodeF]

theorem ldB (x : Reg) : Statement (.ldB x) := by
  intro _; simp [encode, decodeWord, decodeF]

theorem storeRegs (x : Reg) : Statement (.storeRegs x) := by
  intro _; simp [encode, decodeWord, decodeF]

theorem loadRegs (x : Reg) : Statement (.loadRegs x) := by
  intro _; simp [encode, decodeWord, decodeF]

end Sys2Proof.Laws.RoundTrip
end

