-- ==== Sys2Proof/Laws/Step.lean ====
section
/-! SUPPORT. What a cycle and a step can do, said once; and the induction over steps. -/

namespace Sys2Proof.Machine

/-- The fetch inside memory (R81). -/
theorem State.fetch_of_le {s : State} (h : s.pc.toNat ≤ 0xFFE) :
    s.fetch = some (opcodeOfBytes (s.readByte s.pc.toNat) (s.readByte (s.pc.toNat + 1))) := by
  simp [State.fetch, h]

/-- The fetch outside memory (R49). -/
theorem State.fetch_eq_none {s : State} : s.fetch = none ↔ 0xFFE < s.pc.toNat := by
  simp [State.fetch]

/-- A word executes as its instruction, or as the no-op of an unknown word (R69, R86). -/
theorem executeWord_cases (op : Word) (s : State) :
    (∃ i, decodeWord op = some i ∧ executeWord op s = exec i s) ∨
    (decodeWord op = none ∧ executeWord op s = .next (s.emit (.unknownOpcode op s.instrAddress))) := by
  cases h : decodeWord op with
  | none => exact .inr ⟨rfl, by simp [executeWord, h]⟩
  | some i => exact .inl ⟨i, rfl, by simp [executeWord, h]⟩

/-- The key-wait gate passes a running core, stalls a waiting one with no key pressed, and otherwise delivers the key
(R83 to R85). -/
theorem State.keyGate_cases (s : State) :
    (s.kw = .running ∧ s.keyGate = some s) ∨
    (∃ r, s.kw = .waiting r ∧ s.firstKey = none ∧ s.keyGate = none) ∨
    (∃ r k, s.kw = .waiting r ∧ s.firstKey = some k ∧
      s.keyGate = some { s.setReg r (BitVec.ofNat 8 k.val) with kw := .running }) := by
  cases hk : s.kw with
  | running => exact .inl ⟨rfl, by simp [State.keyGate, hk]⟩
  | waiting r =>
    cases hf : s.firstKey with
    | none => exact .inr (.inl ⟨r, rfl, rfl, by simp [State.keyGate, hk, hf]⟩)
    | some k => exact .inr (.inr ⟨r, k, rfl, rfl, by simp [State.keyGate, hk, hf]⟩)

/-- Everything a cycle can do (R82): a fetch fault, a stall, or the execution of the fetched word after the gate. -/
theorem State.runCycle_cases (s : State) :
    (0xFFE < s.pc.toNat ∧ s.runCycle = .next { s with
      fault := some ⟨.outOfBoundsMemoryAccess, s.fetchFaultAddress, none⟩ }) ∨
    (∃ op, s.fetch = some op ∧ s.advance.keyGate = none ∧ s.runCycle = .next s) ∨
    (∃ op u, s.fetch = some op ∧ s.advance.keyGate = some u ∧ s.runCycle = executeWord op u) := by
  cases hf : s.fetch with
  | none => exact .inl ⟨State.fetch_eq_none.mp hf, by simp [State.runCycle, hf, State.raiseFetchFault, State.raise]⟩
  | some op =>
    cases hg : s.advance.keyGate with
    | none => exact .inr (.inl ⟨op, rfl, rfl, by simp [State.runCycle, hf, hg]⟩)
    | some u => exact .inr (.inr ⟨op, u, rfl, rfl, by simp [State.runCycle, hf, hg]⟩)

/-- A cycle answers a next state. -/
theorem State.runCycle_next (s : State) : ∃ t, s.runCycle = .next t := by
  obtain ⟨-, h⟩ | ⟨op, -, -, h⟩ | ⟨op, u, -, -, h⟩ := State.runCycle_cases s
  · exact ⟨_, h⟩
  · exact ⟨_, h⟩
  · obtain ⟨i, -, he⟩ | ⟨-, he⟩ := executeWord_cases op u
    · obtain ⟨t, ht⟩ := exec_next i u
      exact ⟨t, by rw [h, he, ht]⟩
    · exact ⟨_, h.trans he⟩

/-- Everything a step that answers a next state can be: a cycle of a tick, or the timer step that ends it. -/
theorem step_cases {s t : State} (h : step s = .next t) :
    s.fault = none ∧
      ((s.cycle < s.config.cyclesPerTick ∧ s.startCycle.runCycle = .next t) ∨
       (s.config.cyclesPerTick ≤ s.cycle ∧ t = s.endTick)) := by
  cases hf : s.fault with
  | some r => simp [step, hf] at h
  | none =>
    refine ⟨rfl, ?_⟩
    by_cases hc : s.cycle < s.config.cyclesPerTick
    · exact .inl ⟨hc, by simpa [step, hf, hc] using h⟩
    · exact .inr ⟨by omega, by simpa [step, hf, hc, eq_comm] using h⟩

/-- A step of an unfaulted core whose cycle is due is that cycle. -/
theorem step_of_cycle {s : State} (hf : s.fault = none) (hc : s.cycle < s.config.cyclesPerTick) :
    step s = s.startCycle.runCycle := by
  simp [step, hf, hc]

/-- A step of an unfaulted core whose cycles have run is the timer step. -/
theorem step_of_end {s : State} (hf : s.fault = none) (hc : s.config.cyclesPerTick ≤ s.cycle) :
    step s = .next s.endTick := by
  simp [step, hf, Nat.not_lt.mpr hc]

/-- A step of a faulted core is the stop. -/
theorem step_of_fault {s : State} {r : FaultRecord} (hf : s.fault = some r) : step s = .fault (.coreFaulted r) := by
  simp [step, hf]

/-- Running `k + 1` steps is one step and then `k`. -/
theorem run_succ (k : Nat) (s : State) : run (k + 1) s =
    match step s with
    | .next t => run k t
    | .fault r => .fault r
    | .refused r => .refused r := rfl

theorem run_succ_next {k : Nat} {s t : State} (h : step s = .next t) : run (k + 1) s = run k t := by
  rw [run_succ, h]

theorem run_succ_stop {k : Nat} {s : State} {r : Fault} (h : step s = .fault r) : run (k + 1) s = .fault r := by
  rw [run_succ, h]

theorem run_succ_refused {k : Nat} {s : State} {r : Refusal} (h : step s = .refused r) :
    run (k + 1) s = .refused r := by
  rw [run_succ, h]

theorem run_succ_fault {k : Nat} {s : State} {r : FaultRecord} (h : s.fault = some r) :
    run (k + 1) s = .fault (.coreFaulted r) :=
  run_succ_stop (step_of_fault h)

/-- What holds of a state and is kept by every step holds after any number of steps. -/
theorem run_preserves {P : State → Prop} (hstep : ∀ s t, P s → step s = .next t → P t) :
    ∀ (k : Nat) (s t : State), P s → run k s = .next t → P t
  | 0, s, t, hs, h => by cases h; exact hs
  | k + 1, s, t, hs, h => by
    cases hk : step s with
    | next u => exact run_preserves hstep k u t (hstep s u hs hk) (run_succ_next hk ▸ h)
    | fault r => rw [run_succ, hk] at h; cases h
    | refused r => rw [run_succ, hk] at h; cases h

/-- `run` is the host's run of this machine. -/
theorem core_run_eq : ∀ (k : Nat) (s : core.State), Host.Core.run core k s = run k s
  | 0, _ => rfl
  | k + 1, s => by
    rw [Host.Core.run]
    cases h : core.step s with
    | next t => exact (core_run_eq k t).trans (run_succ_next h).symm
    | fault r => exact (run_succ_stop h).symm
    | refused r => exact (run_succ_refused h).symm

/-- The first pressed key in scan order: none exactly when no key is pressed (R83). -/
theorem State.firstKey_eq_none {s : State} : s.firstKey = none ↔ s.keys = 0 := by
  unfold State.firstKey State.key keyScanOrder
  constructor
  · intro h
    simp only [List.find?_eq_none] at h
    apply BitVec.eq_of_getLsbD_eq; intro k hk
    have := h ⟨k, hk⟩ (by
      have : ∀ r : Reg, r ∈ ([0, 1, 2, 3, 4, 5, 6, 7, 8, 9, 10, 11, 12, 13, 14, 15] : List Reg) := by decide
      exact this _)
    simpa using this
  · intro h; simp [h]

/-- The first pressed key in scan order is the lowest (R83, R85). -/
theorem State.firstKey_eq_some {s : State} {k : Reg} (h : s.keys.getLsbD k.val = true)
    (hl : ∀ j : Reg, j < k → s.keys.getLsbD j.val = false) : s.firstKey = some k := by
  have hord : keyScanOrder = List.ofFn (fun r : Reg => r) := by decide
  unfold State.firstKey State.key
  rw [List.find?_eq_some_iff_append]
  refine ⟨h, (List.ofFn (fun r : Reg => r)).take k.val, (List.ofFn (fun r : Reg => r)).drop (k.val + 1), ?_, ?_⟩
  · rw [hord]; clear h hl hord; revert k; decide
  · intro a ha
    have : a < k := by
      rw [List.mem_take_iff_getElem] at ha
      obtain ⟨j, hj, rfl⟩ := ha
      rw [Fin.lt_def, List.getElem_ofFn]
      show j < k.val
      omega
    rw [hl a this]; rfl

/-- A tick of an unfaulted core: its cycles, then the timer step unless one of them faulted (R87). -/
theorem State.tick_of_unfaulted {s : State} (keys : KeyState) (hf : s.fault = none) :
    s.tick keys =
      match State.runCycles s.config.cyclesPerTick { s with keys := keys, events := [] } with
      | .next t =>
        if t.fault = none then .next { state := t.timerStep, events := t.timerStep.events, ok := true }
        else .next { state := t, events := t.events, ok := false }
      | .fault r => .fault r
      | .refused r => .refused r := by
  unfold State.tick
  split
  · next h => rw [hf] at h; cases h
  · rfl

/-- The cycles of a tick answer a next state. -/
theorem State.runCycles_next : ∀ (n : Nat) (s : State), ∃ t, State.runCycles n s = .next t
  | 0, s => ⟨s, rfl⟩
  | n + 1, s => by
    obtain ⟨u, hu⟩ := State.runCycle_next s
    rw [State.runCycles, hu]
    by_cases h : u.fault = none
    · obtain ⟨t, ht⟩ := State.runCycles_next n u
      exact ⟨t, (if_pos h).trans ht⟩
    · exact ⟨u, if_neg h⟩

/-- A tick always returns (R87, R205). -/
theorem State.tick_next (s : State) (keys : KeyState) : ∃ r, s.tick keys = .next r := by
  cases hf : s.fault with
  | some f => exact ⟨_, by rw [State.tick, hf]⟩
  | none =>
    obtain ⟨t, ht⟩ := State.runCycles_next s.config.cyclesPerTick { s with keys := keys, events := [] }
    rw [State.tick_of_unfaulted keys hf, ht]
    by_cases h : t.fault = none
    · exact ⟨_, if_pos h⟩
    · exact ⟨_, if_neg h⟩

/-- The cycle does not look at the position of the tick. -/
theorem State.runCycle_withCycle (s t : State) (c : Nat) (h : s.runCycle = .next t) :
    ({ s with cycle := c } : State).runCycle = .next { t with cycle := c } := by
  have hfetch : ({ s with cycle := c } : State).fetch = s.fetch := rfl
  have hgate : ({ s with cycle := c } : State).advance.keyGate =
      s.advance.keyGate.map fun u => { u with cycle := c } := by
    simp only [State.keyGate, State.advance, State.firstKey, State.key, State.setReg]
    cases s.kw with
    | running => rfl
    | waiting r => cases List.find? _ _ <;> rfl
  obtain ⟨hpc, h'⟩ | ⟨op, hf, hg, h'⟩ | ⟨op, u, hf, hg, h'⟩ := State.runCycle_cases s <;> rw [h'] at h
  · cases h
    rw [State.runCycle, hfetch, State.fetch_eq_none.mpr hpc]; rfl
  · cases h
    rw [State.runCycle, hfetch, hf]
    simp [hgate, hg]
  · rw [State.runCycle, hfetch, hf]
    simp only [hgate, hg, Option.map_some]
    obtain ⟨i, hd, he⟩ | ⟨hd, he⟩ := executeWord_cases op u <;> rw [he] at h
    · rw [executeWord, hd]; exact exec_withCycle i u t c h
    · cases h
      rw [executeWord, hd]; rfl

end Sys2Proof.Machine
end

