-- ==== Sys2Proof/Tests/Slice0.lean ====
section
/-! SUPPORT. The model's own tests: the refused ill-formed term, one word per constructor written out from
spec/30_encoding.md R66, single steps with the expected results of spec/95_test_vectors.md (the vector's name stands in
each docstring), and for every statement with hypotheses a state and operands that meet them. -/

namespace Sys2Proof.Tests

open Sys2Proof.Machine

/-! ## Helpers -/

/-- The reset core with these registers; the host's next key state and random byte are fixed. -/
def core0 (regs : List (Reg × Byte)) (keys : KeyState) (random : Byte) : State :=
  regs.foldl (fun s p => s.setReg p.1 p.2)
    { State.reset with ports := { keyInputs := [keys], keyDraws := 0, randomInputs := [random], randomDraws := 0 } }

/-- `core0` with no key pressed. -/
def start (regs : List (Reg × Byte)) : State := core0 regs 0 0

/-- One step on a core with this word placed where it fetches next; `p` of the state after. -/
def stepWord (s : State) (word : Nat) (p : State → Bool) : Bool :=
  match step (s.withFetchWord 16 word) with
  | .next t => p t
  | .fault _ => false
  | .refused _ => false

/-- One step as the core stands; `p` of the state after. -/
def stepOnce (s : State) (p : State → Bool) : Bool :=
  match step s with
  | .next t => p t
  | .fault _ => false
  | .refused _ => false

/-- The pixels (column, row) of the first list are lit, those of the second are dark. -/
def shows (s : State) (lit dark : List (Nat × Nat)) : Bool :=
  lit.all (fun p => Framebuffer.pixel s.fb p.1 p.2) && dark.all (fun p => !Framebuffer.pixel s.fb p.1 p.2)

/-- `s` with these pixels flipped. -/
def light (s : State) (ps : List (Nat × Nat)) : State :=
  { s with fb := ps.foldl (fun fb p => Framebuffer.flip fb p.1 p.2) s.fb }

/-! ## Well-formed terms -/

/-- A sprite height that the 4-bit field cannot hold is refused; the largest it can is not. -/
theorem test_wellFormed_drw :
    (Instr.drw 0 0 16).wellFormed = false ∧ (Instr.drw 0 0 15).wellFormed = true := by decide

/-! ## Decoding, one word per constructor -/

/-- Group 0, 1, 2, B and the conditional skips. -/
theorem test_decode_control :
    decodeTableWord 16 0b0000_0000_1110_1110 = some (.ret 0) ∧
    decodeTableWord 16 0b0001_1010_1011_1100 = some (.jp 0xABC) ∧
    decodeTableWord 16 0b0010_0011_0000_0000 = some (.call 0x300) ∧
    decodeTableWord 16 0b0011_1010_0100_0010 = some (.seImm 0xA 0x42) ∧
    decodeTableWord 16 0b0100_1010_0100_0010 = some (.sneImm 0xA 0x42) ∧
    decodeTableWord 16 0b0101_0001_0010_0000 = some (.seReg 1 2) ∧
    decodeTableWord 16 0b1001_0001_0010_0000 = some (.sneReg 1 2) ∧
    decodeTableWord 16 0b1011_0011_0000_0000 = some (.jpV0 0x300) := by decide

/-- Load, arithmetic, logic, shift, random. -/
theorem test_decode_alu :
    decodeTableWord 16 0b0110_1111_1010_1011 = some (.ldImm 0xF 0xAB) ∧
    decodeTableWord 16 0b0111_0000_0000_0010 = some (.addImm 0 2) ∧
    decodeTableWord 16 0b1000_0001_0010_0000 = some (.ldReg 1 2) ∧
    decodeTableWord 16 0b1000_0001_0010_0001 = some (.orReg 1 2) ∧
    decodeTableWord 16 0b1000_0001_0010_0010 = some (.andReg 1 2) ∧
    decodeTableWord 16 0b1000_0001_0010_0011 = some (.xorReg 1 2) ∧
    decodeTableWord 16 0b1000_1111_0001_0100 = some (.addReg 0xF 1) ∧
    decodeTableWord 16 0b1000_0001_0010_0101 = some (.subReg 1 2) ∧
    decodeTableWord 16 0b1000_0010_1110_0110 = some (.shr 2 0xE) ∧
    decodeTableWord 16 0b1000_0001_0010_0111 = some (.subnReg 1 2) ∧
    decodeTableWord 16 0b1000_0010_0000_1110 = some (.shl 2 0) ∧
    decodeTableWord 16 0b1100_0011_0000_1111 = some (.rnd 3 0x0F) := by decide

/-- Index register, memory, display, keys, timers. -/
theorem test_decode_index_display_keys :
    decodeTableWord 16 0b0000_0001_1110_0000 = some (.cls 1) ∧
    decodeTableWord 16 0b1010_0010_1111_0000 = some (.ldI 0x2F0) ∧
    decodeTableWord 16 0b1101_0001_0010_0101 = some (.drw 1 2 5) ∧
    decodeTableWord 16 0b1110_0010_1001_1110 = some (.skp 2) ∧
    decodeTableWord 16 0b1110_0010_1010_0001 = some (.sknp 2) ∧
    decodeTableWord 16 0b1111_0101_0000_0111 = some (.ldVxDt 5) ∧
    decodeTableWord 16 0b1111_0001_0000_1010 = some (.ldVxK 1) ∧
    decodeTableWord 16 0b1111_0011_0001_0101 = some (.ldDtVx 3) ∧
    decodeTableWord 16 0b1111_0011_0001_1000 = some (.ldStVx 3) ∧
    decodeTableWord 16 0b1111_0001_0001_1110 = some (.addI 1) ∧
    decodeTableWord 16 0b1111_0111_0010_1001 = some (.ldF 7) ∧
    decodeTableWord 16 0b1111_0110_0011_0011 = some (.ldB 6) ∧
    decodeTableWord 16 0b1111_0010_0101_0101 = some (.storeRegs 2) ∧
    decodeTableWord 16 0b1111_0010_0110_0101 = some (.loadRegs 2) := by decide

/-- Words of R70 that no row covers, one at least of each group that has any. -/
theorem test_decode_unknown :
    [0x0000, 0x00E1, 0x5011, 0x8008, 0x800D, 0x800F, 0x9121, 0xE000, 0xE09F, 0xF000, 0xF0FF].all
      (fun w => decodeTableWord 16 w == none) = true := by decide

/-! ## Single steps -/

/-- CF2: bits 11:8 ignored, the most recent entry popped. -/
theorem test_ret_pops :
    stepWord ({ start [] with stack := [0x345, 0x300] }) 0x07EE (fun t =>
      t.pc == 0x345 &&
      t.stack == [0x300]) = true := by decide

/-- CF3. -/
theorem test_ret_underflow :
    stepWord (start []) 0x00EE (fun t =>
      t.fault == some ⟨.stackUnderflow, 0x200, some 0x00EE⟩ &&
      t.pc == 0x202 &&
      t.stack == []) = true := by decide

/-- CF5: an odd target is accepted. -/
theorem test_jp_odd :
    stepWord (start []) 0x1201 (fun t =>
      t.pc == 0x201 &&
      t.stack == []) = true := by decide

/-- CF6. -/
theorem test_call_pushes :
    stepWord (start []) 0x2300 (fun t =>
      t.pc == 0x300 &&
      t.stack == [0x202]) = true := by decide

/-- CF7. -/
theorem test_call_overflow :
    stepWord ({ start [] with stack := List.replicate 16 0x202 }) 0x2300 (fun t =>
      t.fault == some ⟨.stackOverflow, 0x200, some 0x2300⟩ &&
      t.pc == 0x202 &&
      t.sp == 16) = true := by decide

/-- CF8. -/
theorem test_seImm_skips :
    stepWord (start [(0xA, 0x42)]) 0x3A42 (fun t =>
      t.pc == 0x204) = true := by decide

/-- CF9. -/
theorem test_seImm_passes :
    stepWord (start [(0xA, 0x43)]) 0x3A42 (fun t =>
      t.pc == 0x202) = true := by decide

/-- CF10. -/
theorem test_sneImm_skips :
    stepWord (start [(0xA, 0x43)]) 0x4A42 (fun t =>
      t.pc == 0x204) = true := by decide

/-- CF11. -/
theorem test_sneImm_passes :
    stepWord (start [(0xA, 0x42)]) 0x4A42 (fun t =>
      t.pc == 0x202) = true := by decide

/-- CF12. -/
theorem test_seReg_skips :
    stepWord (start [(1, 7), (2, 7)]) 0x5120 (fun t =>
      t.pc == 0x204) = true := by decide

/-- CF13. -/
theorem test_seReg_passes :
    stepWord (start [(1, 7), (2, 8)]) 0x5120 (fun t =>
      t.pc == 0x202) = true := by decide

/-- CF15. -/
theorem test_sneReg_skips :
    stepWord (start [(1, 7), (2, 8)]) 0x9120 (fun t =>
      t.pc == 0x204) = true := by decide

/-- CF16. -/
theorem test_sneReg_passes :
    stepWord (start [(1, 7), (2, 7)]) 0x9120 (fun t =>
      t.pc == 0x202) = true := by decide

/-- CF18: the sum leaves the 12-bit range. -/
theorem test_jpV0_not_wrapped :
    stepWord (start [(0, 0xFF)]) 0xBFFF (fun t =>
      t.pc == 0x10FE &&
      t.fault == none) = true := by decide

/-- AL1. -/
theorem test_ldImm_vf :
    stepWord (start []) 0x6FAB (fun t =>
      t.reg 15 == 0xAB &&
      t.pc == 0x202) = true := by decide

/-- AL2: no carry. -/
theorem test_addImm_wraps :
    stepWord (start [(0, 0xFF)]) 0x7002 (fun t =>
      t.reg 0 == 1 &&
      t.reg 15 == 0) = true := by decide

/-- AL3: VF as data. -/
theorem test_addImm_vf :
    stepWord (start [(15, 0xFF)]) 0x7F01 (fun t =>
      t.reg 15 == 0) = true := by decide

/-- AL4. -/
theorem test_ldReg_copies :
    stepWord (start [(1, 0xAB)]) 0x8010 (fun t =>
      t.reg 0 == 0xAB &&
      t.reg 1 == 0xAB) = true := by decide

/-- AL5. -/
theorem test_orReg_keeps_vf :
    stepWord (start [(0, 0xF0), (1, 0x0F), (15, 0x55)]) 0x8011 (fun t =>
      t.reg 0 == 0xFF &&
      t.reg 15 == 0x55) = true := by decide

/-- AL6. -/
theorem test_andReg_keeps_vf :
    stepWord (start [(0, 0xF3), (1, 0x3C), (15, 0x55)]) 0x8012 (fun t =>
      t.reg 0 == 0x30 &&
      t.reg 15 == 0x55) = true := by decide

/-- AL7. -/
theorem test_xorReg_keeps_vf :
    stepWord (start [(0, 0xFF), (1, 0x0F), (15, 0x55)]) 0x8013 (fun t =>
      t.reg 0 == 0xF0 &&
      t.reg 15 == 0x55) = true := by decide

/-- AL11. -/
theorem test_addReg_carry :
    stepWord (start [(0, 0xFF), (1, 1)]) 0x8014 (fun t =>
      t.reg 0 == 0 &&
      t.reg 15 == 1) = true := by decide

/-- AL14: with X = F the flag overwrites the sum. -/
theorem test_addReg_flag_last :
    stepWord (start [(15, 0xF0), (1, 0x20)]) 0x8F14 (fun t =>
      t.reg 15 == 1) = true := by decide

/-- AL18. -/
theorem test_subReg_borrow :
    stepWord (start [(0, 5), (1, 7)]) 0x8015 (fun t =>
      t.reg 0 == 0xFE &&
      t.reg 15 == 0) = true := by decide

/-- AL19. -/
theorem test_subReg_equal :
    stepWord (start [(0, 7), (1, 7)]) 0x8015 (fun t =>
      t.reg 0 == 0 &&
      t.reg 15 == 1) = true := by decide

/-- AL26. -/
theorem test_shr_ignores_vy :
    stepWord (start [(2, 0xFF), (14, 0x10)]) 0x82E6 (fun t =>
      t.reg 2 == 0x7F &&
      t.reg 15 == 1 &&
      t.reg 14 == 0x10) = true := by decide

/-- AL25. -/
theorem test_shr_clears_vf :
    stepWord (start [(2, 0), (15, 1)]) 0x8206 (fun t =>
      t.reg 2 == 0 &&
      t.reg 15 == 0) = true := by decide

/-- AL28. -/
theorem test_subnReg_no_borrow :
    stepWord (start [(0, 5), (1, 7)]) 0x8017 (fun t =>
      t.reg 0 == 2 &&
      t.reg 15 == 1) = true := by decide

/-- AL29. -/
theorem test_subnReg_borrow :
    stepWord (start [(0, 7), (1, 5)]) 0x8017 (fun t =>
      t.reg 0 == 0xFE &&
      t.reg 15 == 0) = true := by decide

/-- AL31. -/
theorem test_shl_carry :
    stepWord (start [(2, 0x81)]) 0x820E (fun t =>
      t.reg 2 == 2 &&
      t.reg 15 == 1) = true := by decide

/-- AL32. -/
theorem test_shl_no_carry :
    stepWord (start [(2, 0x7F), (15, 1)]) 0x820E (fun t =>
      t.reg 2 == 0xFE &&
      t.reg 15 == 0) = true := by decide

/-- AL35: the byte A7 is consumed. -/
theorem test_rnd_masks :
    stepWord (core0 [] 0 0xA7) 0xC30F (fun t =>
      t.reg 3 == 7 &&
      t.ports.randomInputs == []) = true := by decide

/-- AL36: a byte is drawn also with NN = 0. -/
theorem test_rnd_mask_zero :
    stepWord (core0 [] 0 0xFF) 0xC300 (fun t =>
      t.reg 3 == 0 &&
      t.ports.randomInputs == []) = true := by decide

/-- IM1. -/
theorem test_ldI :
    stepWord (start []) 0xA2F0 (fun t =>
      t.i == 0x2F0) = true := by decide

/-- IM3. -/
theorem test_addI_wraps :
    stepWord ({ start [(1, 2)] with i := 0xFFFF }) 0xF11E (fun t =>
      t.i == 1 &&
      t.reg 15 == 0) = true := by decide

/-- IM2: past the end of memory, no flag and no fault. -/
theorem test_addI_no_fault :
    stepWord ({ start [(1, 5)] with i := 0x0FFE }) 0xF11E (fun t =>
      t.i == 0x1003 &&
      t.reg 15 == 0 &&
      t.fault == none) = true := by decide

/-- IM5. -/
theorem test_ldF_not_masked :
    stepWord (start [(0, 0xFF)]) 0xF029 (fun t =>
      t.i == 0x4FB) = true := by decide

/-- IM10. -/
theorem test_ldB_last_base :
    stepWord ({ start [(0, 0xFF)] with i := 0xFFD }) 0xF033 (fun t =>
      t.readByte 0xFFD == 2 &&
      t.readByte 0xFFE == 5 &&
      t.readByte 0xFFF == 5) = true := by decide

/-- IM12: no wrap to low memory. -/
theorem test_ldB_fault :
    stepWord ({ start [(0, 0xFF)] with i := 0xFFFF }) 0xF033 (fun t =>
      t.fault == some ⟨.outOfBoundsMemoryAccess, 0xFFFF, some 0xF033⟩ &&
      t.readByte 0 == 0xF0 &&
      t.readByte 1 == 0x90) = true := by decide

/-- IM13. -/
theorem test_storeRegs_inclusive :
    stepWord ({ start [(0, 0x11), (1, 0x22), (2, 0x33), (3, 0x44)] with i := 0x400 }) 0xF255 (fun t =>
      t.readByte 0x400 == 0x11 &&
      t.readByte 0x402 == 0x33 &&
      t.readByte 0x403 == 0 &&
      t.i == 0x400) = true := by decide

/-- IM16: no byte is written. -/
theorem test_storeRegs_fault :
    stepWord ({ start [(0, 1), (15, 0x10)] with i := 0xFF1 }) 0xFF55 (fun t =>
      t.fault == some ⟨.outOfBoundsMemoryAccess, 0x1000, some 0xFF55⟩ &&
      t.readByte 0xFF1 == 0) = true := by decide

/-- IM18: bytes 5 to 15 rest on the default font. -/
theorem test_loadRegs_font :
    stepWord (start []) 0xFF65 (fun t =>
      t.v.toList == [0xF0, 0x90, 0x90, 0x90, 0xF0, 0x20, 0x60, 0x20, 0x20, 0x70, 0xF0, 0x10, 0xF0, 0x80, 0xF0, 0xF0]) = true := by decide

/-- IM19: no register is written. -/
theorem test_loadRegs_fault :
    stepWord ({ start [(0, 0x55), (1, 0x66)] with i := 0xFFF }) 0xF165 (fun t =>
      t.fault == some ⟨.outOfBoundsMemoryAccess, 0x1000, some 0xF165⟩ &&
      t.reg 0 == 0x55 &&
      t.reg 1 == 0x66) = true := by decide

/-- DR14. -/
theorem test_cls_keeps_vf :
    stepWord (light (start [(15, 1)]) [(3, 3), (63, 31)]) 0x00E0 (fun t =>
      shows t [] [(3, 3), (63, 31), (0, 0)] &&
      t.reg 15 == 1) = true := by decide

/-- DR9. -/
theorem test_drw_clips_and_uses_font :
    stepWord (start [(1, 62), (2, 30)]) 0xD125 (fun t =>
      shows t [(62, 30), (63, 30), (62, 31)] [(63, 31), (0, 30), (1, 31), (62, 0), (61, 30)] &&
      t.reg 15 == 0) = true := by decide

/-- DR4: one pixel turned off, one on. -/
theorem test_drw_collides :
    stepWord (light { start [(0, 5)] with i := 0x2F0, mem := [(0x2F0, 0xC0)] } [(6, 0), (20, 0)]) 0xD011 (fun t =>
      shows t [(5, 0), (20, 0)] [(6, 0), (4, 0), (7, 0)] &&
      t.reg 15 == 1) = true := by decide

/-- KT1. -/
theorem test_skp_pressed :
    stepWord (core0 [(2, 7)] 0x0080 0) 0xE29E (fun t =>
      t.pc == 0x204) = true := by decide

/-- KT6. -/
theorem test_skp_fault :
    stepWord (core0 [(2, 0x10)] 0xFFFF 0) 0xE29E (fun t =>
      t.fault == some ⟨.badKeyIndex, 0x200, some 0xE29E⟩ &&
      t.pc == 0x202) = true := by decide

/-- KT4. -/
theorem test_sknp_released :
    stepWord (core0 [(2, 7)] 0 0) 0xE2A1 (fun t =>
      t.pc == 0x204) = true := by decide

/-- KT5. -/
theorem test_sknp_pressed :
    stepWord (core0 [(2, 7)] 0x0080 0) 0xE2A1 (fun t =>
      t.pc == 0x202) = true := by decide

/-- KT8. -/
theorem test_ldVxDt :
    stepWord ({ start [] with dt := 0x3C }) 0xF507 (fun t =>
      t.reg 5 == 0x3C &&
      t.dt == 0x3C) = true := by decide

/-- KT9. -/
theorem test_ldDtVx :
    stepWord (start [(0, 3)]) 0xF015 (fun t =>
      t.dt == 3 &&
      t.st == 0) = true := by decide

/-- KT11: no beep. -/
theorem test_ldStVx :
    stepWord ({ start [(0, 0)] with st := 5 }) 0xF018 (fun t =>
      t.st == 0 &&
      t.dt == 0 &&
      t.events == []) = true := by decide

/-- KT12: the held key is not sampled. -/
theorem test_ldVxK :
    stepWord (core0 [] 0x0080 0) 0xF10A (fun t =>
      t.kw == .waiting 1 &&
      t.reg 1 == 0 &&
      t.pc == 0x202) = true := by decide

/-! ## Cycle, gate, timer step -/

/-- R55: FX55 over the second byte alone of the next word, which was 1234. -/
theorem test_fetch_sees_one_stored_byte :
    stepWord ({ start [(0, 0xE0)] with i := 0x203, mem := [(0x202, 0x12), (0x203, 0x34)] }) 0xF055 (fun t =>
      t.fetch == some 0x12E0) = true := by decide

/-- CF19. -/
theorem test_unknown_word :
    stepWord (start []) 0x5011 (fun t =>
      t.events == [.unknownOpcode 0x5011 0x200] &&
      t.pc == 0x202 &&
      t.fault == none) = true := by decide

/-- KT13 and KT14: waiting on V1 at 0x206, where `7101` stands. -/
def waiting (keys : KeyState) : State :=
  { core0 [] keys 0 with kw := .waiting 1, pc := 0x206, mem := [(0x206, 0x71), (0x207, 0x01)] }

/-- KT13. -/
theorem test_stall :
    stepOnce (waiting 0) (fun t =>
      t.pc == 0x206 &&
      t.reg 1 == 0 &&
      t.kw == .waiting 1) = true := by decide

/-- KT14: the lowest of keys 7 and A is delivered, then `7101` executes. -/
theorem test_release :
    stepOnce (waiting 0x0480) (fun t =>
      t.pc == 0x208 &&
      t.reg 1 == 8 &&
      t.kw == .running) = true := by decide

/-- TK5: the second cycle. -/
theorem test_fetch_fault :
    stepOnce ({ start [] with pc := 0xFFF }) (fun t =>
      t.fault == some ⟨.outOfBoundsMemoryAccess, 0x1000, none⟩ &&
      t.pc == 0xFFF) = true := by decide

/-- TK6: the second cycle. -/
theorem test_last_word_fetched :
    stepOnce ({ start [] with pc := 0xFFE }) (fun t =>
      t.events == [.unknownOpcode 0 0xFFE] &&
      t.pc == 0x1000) = true := by decide

/-- TK1: the tenth step of the tick. -/
theorem test_timer_step :
    stepOnce ({ start [] with cycle := 9, dt := 1, st := 1 }) (fun t =>
      t.dt == 0 &&
      t.st == 0 &&
      t.events == [.beep] &&
      t.cycle == 0) = true := by decide

/-- TK2: both timers at 0. -/
theorem test_timer_step_idle :
    stepOnce ({ start [] with cycle := 9 }) (fun t =>
      t.dt == 0 &&
      t.st == 0 &&
      t.events == []) = true := by decide

/-- TK7: a faulted core takes no step. -/
theorem test_faulted_core_stops :
    step { start [] with fault := some ⟨.stackUnderflow, 0x200, some 0x00EE⟩ } =
      .fault (.coreFaulted ⟨.stackUnderflow, 0x200, some 0x00EE⟩) := rfl

/-- R200: the codes of the table. -/
theorem test_codes :
    [FaultKind.stackUnderflow, .stackOverflow, .outOfBoundsMemoryAccess, .badKeyIndex].map FaultKind.code = [1, 2, 3, 4] ∧
      LoadResult.oversizedCartridge.code = some 5 ∧ HostReply.oversizedCartridge.code = some 5 ∧
      (start []).faultCode = 0 := by decide

/-- TK11: an image one byte too long does not load. -/
theorem test_oversized : State.reset.load (List.replicate 3585 0) = .oversizedCartridge := by
  have h : (List.replicate 3585 (0 : Byte)).length > maxImage := by rw [List.length_replicate]; decide
  exact (if_pos rfl).trans (if_pos h)

/-- P9: an image of odd length loads, its bytes as they are. -/
theorem test_load_odd_length :
    (match State.reset.load [0x12, 0x03, 0x00, 0x60, 0x2A, 0x12, 0x05] with
      | .ok t => [0x1FF, 0x200, 0x203, 0x206, 0x207].map t.readByte
      | .oversizedCartridge => []
      | .noMove => []) = [0x00, 0x12, 0x60, 0x05, 0x00] := by decide

/-- S8: the default machine's font and first free byte. -/
theorem test_reset_bytes :
    [0, 1, 4, 5, 0x4F, 0x50].map State.reset.readByte = [0xF0, 0x90, 0xF0, 0x20, 0x80, 0x00] := by decide

/-! ## Hypotheses that are met: one witness a statement, each clause at a boundary of its range -/

theorem witness_DecodeOfEncodedBytes :
    (Instr.drw 1 2 0).wellFormed = true ∧ (Instr.drw 15 15 15).wellFormed = true ∧ (Instr.cls 15).wellFormed = true := by
  decide

theorem witness_EncodeOfDecodedWord :
    decodeWord 0x00E0 = some (.cls 0) ∧ decodeWord 0x8FF6 = some (.shr 15 15) ∧
      decodeWord 0xFF65 = some (.loadRegs 15) := by decide

theorem witness_DecodedWordMatchesItsRow :
    (⟨0x00E0, 0xF0FF⟩ : OpcodeRow) ∈ opcodeTable ∧ (⟨0xF065, 0xF0FF⟩ : OpcodeRow) ∈ opcodeTable ∧
      (0x0FE0 : Word) &&& 0xF0FF = 0x00E0 ∧ ¬((0x00E1 : Word) &&& 0xF0FF = 0x00E0) := by decide

theorem witness_ResetFromAnyState : 74 < 75 ∧ 80 ≤ 80 ∧ 4095 < 4096 ∧ 1 ≤ 1 ∧ 3 ≤ 3 := by decide

theorem witness_LoadWritesImageVerbatim :
    State.reset = State.reset.reboot ∧ (List.replicate 3584 (0 : Byte)).length ≤ 3584 ∧
      3584 < (List.replicate 3585 (0 : Byte)).length ∧ start [(0, 1)] ≠ (start [(0, 1)]).reboot :=
  ⟨rfl, by rw [List.length_replicate], by rw [List.length_replicate]; decide, by decide⟩

theorem witness_MemoryIsItsBytes :
    Memory.wf Config.default [(0x000, 1), (0xFFF, 1)] = true ∧
      ∀ a, a < 4096 → Memory.read Config.default [(0x000, 1), (0xFFF, 1)] a =
        Memory.read Config.default [(0x000, 1), (0xFFF, 1)] a :=
  ⟨by decide, fun _ _ => rfl⟩

theorem witness_ReturnPopsOrUnderflows :
    ({ start [] with stack := [0x206] } : State).stack = 0x206 :: [] ∧ (start []).sp = 0 := by decide

theorem witness_CallPushesOrOverflows :
    ({ start [] with stack := List.replicate 15 0x202 } : State).sp < 16 ∧
      ({ start [] with stack := List.replicate 16 0x202 } : State).sp = 16 := by decide

/-- Both branches of each kind of skip. -/
theorem witness_ConditionalSkips :
    (start [(1, 7)]).reg 1 = 7 ∧ (start [(1, 7)]).reg 1 ≠ 8 ∧ (start [(1, 7), (2, 7)]).reg 1 = (start [(1, 7), (2, 7)]).reg 2 ∧
      (start [(1, 7)]).reg 1 ≠ (start [(1, 7)]).reg 2 := by decide

theorem witness_CallsThenReturnsComeBack :
    (start []).fault = none ∧ (start []).sp + (List.replicate 16 (0x300 : Addr12)).length ≤ 16 ∧
      ({ start [] with stack := List.replicate 15 0x202 } : State).sp + [(0xFFF : Addr12)].length ≤ 16 := by decide

/-- A destination and an unaffected register other than VF, for the arithmetic and shift statements. -/
theorem witness_SetsRegisterAndFlag : (14 : Reg) ≠ 15 ∧ (0 : Reg) ≠ 14 ∧ (0 : Reg) ≠ 15 := by decide

theorem witness_LogicCombinesBits : 7 < 8 ∧ (15 : Reg) ≠ 0 := by decide

theorem witness_RandomDrawsOneByte : (core0 [] 0 0xA7).ports.randomInputs = 0xA7 :: [] ∧ (15 : Reg) ≠ 0 := by decide

theorem witness_BcdStoresDigits :
    Memory.wf (start []).config (start []).mem = true ∧ ({ start [] with i := 0xFFD } : State).i.toNat + 2 ≤ 0xFFF ∧
      0xFFF < ({ start [] with i := 0xFFE } : State).i.toNat + 2 := by decide

theorem witness_BulkStoreWritesRegisters :
    Memory.wf (start []).config (start []).mem = true ∧
      ({ start [] with i := 0xFF0 } : State).i.toNat + (15 : Reg).val ≤ 0xFFF ∧
      0xFFF < ({ start [] with i := 0x1000 } : State).i.toNat + (0 : Reg).val := by decide

theorem witness_BulkLoadReadsRegisters :
    ({ start [] with i := 0xFFF } : State).i.toNat + (0 : Reg).val ≤ 0xFFF ∧ (0 : Reg) ≤ 0 ∧ (0 : Reg) < 15 ∧
      0xFFF < ({ start [] with i := 0xFF1 } : State).i.toNat + (15 : Reg).val := by decide

theorem witness_BulkLoadRestoresStoredRegisters :
    Memory.wf (start []).config (start []).mem = true ∧
      ({ start [] with i := 0xFF0 } : State).i.toNat + (15 : Reg).val ≤ 0xFFF := by decide

/-- `pc` at the last word of memory; a bulk store over its second byte alone, and a BCD store that ends there. -/
theorem witness_StoreSeenByNextFetch :
    let s : State := { start [(0, 0x12)] with i := 0xFFF, pc := 0xFFE }
    Memory.wf s.config s.mem = true ∧ s.pc.toNat ≤ 0xFFE ∧ s.i.toNat + (0 : Reg).val ≤ 0xFFF ∧
      ({ s with i := 0xFFD } : State).i.toNat + 2 ≤ 0xFFF := by decide

/-- A draw of no row with I anywhere, the last legal base of 15 rows, and the first illegal ones. -/
theorem witness_DrawXorsSpriteAndReportsCollision :
    0 ≤ 15 ∧ ({ start [] with i := 0xFF1 } : State).i.toNat + 15 - 1 ≤ 0xFFF ∧
      0xFFF < ({ start [] with i := 0xFF2 } : State).i.toNat + 15 - 1 ∧
      0xFFF < ({ start [] with i := 0x1000 } : State).i.toNat + 1 - 1 ∧
      (63 < 64 ∧ 31 < 32 ∧ spriteBit [0xFF] 63 31 63 31 = true ∧
        Framebuffer.pixel (light (start []) [(63, 31)]).fb 63 31 = true) := by decide

theorem witness_DrawTwiceRestores :
    (0 : Reg) ≠ 15 ∧ (14 : Reg) ≠ 15 ∧ ({ start [] with i := 0xFFF } : State).i.toNat + 1 - 1 ≤ 0xFFF := by decide

theorem witness_FramebufferReadIsRowMajor : 63 < 64 ∧ 31 < 32 := by decide

theorem witness_KeySkips :
    (start [(2, 15)]).reg 2 = 15 ∧ ((start [(2, 15)]).reg 2).toNat ≤ 15 ∧ 15 < ((start [(2, 16)]).reg 2).toNat ∧
      (core0 [] 0x8000 0).ports.nextKeys.1.getLsbD 15 = true ∧ (start []).keys.getLsbD 15 = false := by decide

/-- An ADD, which defines a flag, and its state after. -/
theorem witness_OnlyDestinationRegistersChange :
    let s := start [(1, 0xFF), (2, 1)]
    exec (.addReg 1 2) s = .next (s.writeResult 1 0 true) ∧ (Instr.addReg 1 2).writesReg 0 = false ∧
      (Instr.addReg 1 2).definesFlag = true ∧ s.fault = none ∧ (s.writeResult 1 0 true).fault = none :=
  ⟨rfl, by decide, by decide, by decide, by decide⟩

/-- A load immediate, to which every clause applies. -/
theorem witness_OnlyNamedInstructionsChangeEachElement :
    let i := Instr.ldImm 0 5
    exec i (start []) = .next ((start []).setReg 0 5) ∧ i.writesPc = false ∧ i.writesI = false ∧ i.writesMem = false ∧
      i.usesStack = false ∧ i.writesFb = false ∧ (∀ x, i ≠ .ldDtVx x) ∧ (∀ x, i ≠ .ldStVx x) ∧ (∀ x, i ≠ .ldVxK x) ∧
      (∀ x nn, i ≠ .rnd x nn) ∧ i.faultKind = none :=
  ⟨rfl, rfl, rfl, rfl, rfl, rfl, fun _ => nofun, fun _ => nofun, fun _ => nofun, fun _ _ => nofun, rfl⟩

/-- A return on the empty stack. -/
theorem witness_FaultsArePrecise :
    let s := start []
    let r : FaultRecord := ⟨.stackUnderflow, 0x1FE, some 0x00EE⟩
    s.fault = none ∧ exec (.ret 0) s = .next { s with fault := some r } ∧
      ({ s with fault := some r } : State).fault = some r :=
  ⟨by decide, rfl, rfl⟩

/-- The hypotheses on what an instruction neither reads nor writes: a load immediate to V0, seen from V1, meets them all. -/
theorem witness_UnreadStateHasNoInfluence_carried :
    let i := Instr.ldImm 0 5
    (exec i (start []) = .next ((start []).setReg 0 5) ∧ (start []).fault = none ∧
      ((start []).setReg 0 5).fault = none) ∧
    (i.readsReg 1 = false ∧ i.writesReg 1 = false) ∧ (i.readsI = false ∧ i.writesI = false) ∧ i.writesPc = false ∧
    (i.readsMem = false ∧ i.writesMem = false) ∧ i.usesStack = false ∧ i.writesFb = false ∧
    (∀ x, i ≠ .ldVxDt x ∧ i ≠ .ldDtVx x) ∧ (∀ x, i ≠ .ldStVx x) ∧ (∀ x, i ≠ .ldVxK x) ∧ i.readsKeys = false ∧
    (∀ x nn, i ≠ .rnd x nn) :=
  ⟨⟨rfl, rfl, rfl⟩, ⟨rfl, rfl⟩, ⟨rfl, rfl⟩, rfl, ⟨rfl, rfl⟩, rfl, rfl, fun _ => ⟨nofun, nofun⟩, fun _ => nofun,
    fun _ => nofun, rfl, fun _ _ => nofun⟩

/-- The hypotheses on what an instruction writes and does not read: the register of a load immediate; the registers of a
bulk load that faults at 0xFFF; a zero-height draw; the writers of I, pc, memory, the framebuffer, the timers and the key
wait; a return that underflows. -/
theorem witness_UnreadStateHasNoInfluence_overwritten :
    ((Instr.ldImm 0 5).readsReg 0 = false ∧ (Instr.ldImm 0 5).writesReg 0 = true) ∧
    ((Instr.loadRegs 1).readsReg 1 = false ∧ (Instr.loadRegs 1).writesReg 1 = true ∧
      ∃ t, exec (.loadRegs 1) { start [] with i := 0xFFF } = .next t ∧ t.fault ≠ none) ∧
    ((Instr.drw 0 0 0).readsI = false ∧ (Instr.drw 0 0 0).readsMem = false ∧
      ∃ t, exec (.drw 0 0 0) (start []) = .next t) ∧
    ((Instr.ldI 7).readsI = false ∧ (Instr.ldI 7).writesI = true ∧ ∃ t, exec (.ldI 7) (start []) = .next t) ∧
    ((Instr.ldF 0).readsI = false ∧ (Instr.ldF 0).writesI = true ∧ ∃ t, exec (.ldF 0) (start []) = .next t) ∧
    (∃ nnn t, exec (.jp nnn) (start []) = .next t) ∧ (∃ nnn t, exec (.jpV0 nnn) (start []) = .next t) ∧
    ((Instr.ldB 0).readsMem = false ∧ (Instr.ldB 0).writesMem = true ∧ ∃ t, exec (.ldB 0) (start []) = .next t) ∧
    ((Instr.storeRegs 0).readsMem = false ∧ (Instr.storeRegs 0).writesMem = true ∧
      ∃ t, exec (.storeRegs 0) (start []) = .next t) ∧
    (∃ ign t, exec (.cls ign) (start []) = .next t) ∧ (∃ x t, exec (.ldDtVx x) (start []) = .next t) ∧
    (∃ x t, exec (.ldStVx x) (start []) = .next t) ∧ (∃ x t, exec (.ldVxK x) (start []) = .next t) ∧
    (∃ t, exec (.ret 0xE) (start []) = .next t ∧ (start []).fault = none ∧ t.fault ≠ none) :=
  ⟨⟨rfl, rfl⟩, ⟨rfl, rfl, _, rfl, nofun⟩, ⟨rfl, rfl, exec_next _ _⟩, ⟨rfl, rfl, exec_next _ _⟩,
    ⟨rfl, rfl, exec_next _ _⟩, ⟨0, exec_next _ _⟩, ⟨0, exec_next _ _⟩, ⟨rfl, rfl, exec_next _ _⟩,
    ⟨rfl, rfl, exec_next _ _⟩, ⟨15, exec_next _ _⟩, ⟨15, exec_next _ _⟩, ⟨15, exec_next _ _⟩, ⟨15, exec_next _ _⟩,
    _, rfl, rfl, nofun⟩

/-- A call and an offset jump to even targets, with even return addresses on the stack. -/
theorem witness_EvenTargetsKeepPcEven :
    let s : State := { start [(0, 2)] with stack := [0x206] }
    (∃ t, exec (.call 0x300) s = .next t) ∧ (∃ t, exec (.jpV0 0xFFE) s = .next t) ∧
      s.pc.toNat % 2 = 0 ∧ (∀ a ∈ s.stack, a.toNat % 2 = 0) ∧
      (0x300 : Addr12).toNat % 2 = 0 ∧ ((0xFFE : Addr12).toNat + (s.reg 0).toNat) % 2 = 0 :=
  ⟨exec_next _ _, exec_next _ _, by decide, fun a ha => (List.mem_singleton.mp ha : a = 0x206) ▸ rfl, by decide, by decide⟩

theorem witness_FetchIsBigEndian : ({ start [] with pc := 0xFFE } : State).pc.toNat ≤ 0xFFE := by decide

/-- The last word of memory is JP 0x201; the tick's last cycle is due. -/
theorem witness_StepRunsDecodedInstruction :
    let s : State := { start [] with pc := 0xFFE, cycle := 8, mem := [(0xFFE, 0x12), (0xFFF, 0x01)] }
    s.fault = none ∧ s.cycle < s.config.cyclesPerTick ∧ s.kw = .running ∧ s.pc.toNat ≤ 0xFFE ∧
      decode [s.readByte s.pc.toNat, s.readByte (s.pc.toNat + 1)] = .instr (.jp 0x201) [] := by decide

theorem witness_UnknownWordIsNoOpWithEvent :
    let s := start []
    s.fault = none ∧ s.cycle < s.config.cyclesPerTick ∧ s.kw = .running ∧ s.pc.toNat ≤ 0xFFE ∧
      decode [s.readByte s.pc.toNat, s.readByte (s.pc.toNat + 1)] = .rejected (.unknownOpcode 0) := by decide

/-- Waiting, no key pressed. -/
theorem witness_StallLeavesStateUnchanged :
    (waiting 0).fault = none ∧ (waiting 0).cycle < (waiting 0).config.cyclesPerTick ∧
      (waiting 0).kw = .waiting 1 ∧ (waiting 0).pc.toNat ≤ 0xFFE ∧ (waiting 0).beginTick.keys = 0 := by decide

/-- Waiting, keys 7 and A pressed; and with an unknown word at `pc`. -/
theorem witness_ReleaseDeliversLowestKeyAndExecutes :
    let s := waiting 0x0480
    s.fault = none ∧ s.cycle < s.config.cyclesPerTick ∧ s.kw = .waiting 1 ∧ s.fetch = some 0x7101 ∧
      s.beginTick.keys.getLsbD (7 : Reg).val = true ∧
      (∀ j : Reg, j < 7 → s.beginTick.keys.getLsbD j.val = false) ∧ decodeWord 0x7101 = some (.addImm 1 1) ∧
      ({ s with mem := [] } : State).fetch = some 0x0000 ∧ decodeWord 0x0000 = none := by decide

theorem witness_FetchOutsideMemoryFaults :
    let s : State := { start [] with pc := 0xFFF }
    s.fault = none ∧ s.cycle < s.config.cyclesPerTick ∧ 0xFFE < s.pc.toNat := by decide

/-- A sound timer at 1, and one at 2. -/
theorem witness_TimerStepEndsTick :
    let s : State := { start [] with cycle := 9, st := 1 }
    s.fault = none ∧ s.config.cyclesPerTick ≤ s.cycle ∧ s.st = 1 ∧ ({ s with st := 2 } : State).st ≠ 1 := by decide

theorem witness_OnlyFaultedCoreIsStuck :
    (start []).fault = none ∧
      ({ start [] with fault := some ⟨.badKeyIndex, 0x200, some 0xE09E⟩ } : State).fault =
        some ⟨.badKeyIndex, 0x200, some 0xE09E⟩ := by decide

/-- A state in the middle of a tick, its `pc` and `SP` at the ends of their ranges; its next step takes the fetch
fault. -/
def midTick : State :=
  { start [(3, 9)] with pc := 0x10FE, stack := List.replicate 16 0x1000, mem := [(0x300, 7)], cycle := 5 }

theorem witness_StepKeepsInvariant :
    midTick.Inv ∧ ∃ t, step midTick = .next t :=
  ⟨{ mem_wf := by decide, pc_le := by decide, sp_le := by decide, stack_le := fun a ha => by rw [List.eq_of_mem_replicate ha]; decide
     cycle_le := by decide, beep_last := by decide, beep_once := by decide, fault_record := by intro r h; cases h },
    (State.runCycle_next _).imp fun _ h => (step_of_cycle (s := midTick) (by decide) (by decide)).trans h⟩

/-- TK7: with `00EE` at 0x200 the tick fails in its first cycle. -/
theorem witness_TickIsItsSteps :
    let s : State := { start [] with mem := [(0x201, 0xEE)], dt := 5 }
    s.fault = none ∧ s.cycle = 0 ∧
      (match s.tick 0 with
        | .next r => r.ok = false ∧ r.state.dt = 5 ∧ r.events = []
        | .fault _ => False
        | .refused _ => False) :=
  ⟨by decide, by decide, by decide, by decide, by decide⟩

theorem witness_WaitingTickOnlyCountsTimers :
    (waiting 0).fault = none ∧ (waiting 0).kw = .waiting 1 ∧ (waiting 0).pc.toNat ≤ 0xFFE := by decide

theorem witness_SelfJumpIsFixedPoint :
    let s : State := { start [] with mem := [(0x200, 0x12)] }
    s.kw = .running ∧ s.pc.toNat = (0x200 : Addr12).toNat ∧ s.fetch = some (encode (.jp 0x200)) := by decide

theorem witness_PlacedWordRunsNext :
    Memory.wf (start []).config (start []).mem = true ∧ 0xFF65 < 65536 ∧
      decodeWord (BitVec.ofNat 16 0xFF65) = some (.loadRegs 15) ∧ (start []).pc.toNat ≤ 0xFFE ∧
      0x1FF ≠ ((start []).withFetchWord 16 0xFF65).pc.toNat ∧
      0x1FF ≠ ((start []).withFetchWord 16 0xFF65).pc.toNat + 1 := by decide

theorem witness_HostOperationsFollowBootOrder :
    let s : Session := ⟨.fresh, State.reset⟩
    s.phase = .fresh ∧ s.core = s.core.reboot ∧ (List.replicate 3584 (0 : Byte)).length ≤ 3584 ∧
      3584 < (List.replicate 3585 (0 : Byte)).length ∧ (⟨.loaded, State.reset⟩ : Session).phase = .loaded ∧
      (⟨.rejected, State.reset⟩ : Session).phase ≠ .fresh ∧ (⟨.rejected, State.reset⟩ : Session).phase ≠ .loaded :=
  ⟨rfl, rfl, by rw [List.length_replicate], by rw [List.length_replicate]; decide, rfl, nofun, nofun⟩

/-- A call on a full stack, an oversized load, an unknown word. -/
theorem witness_CodesOfFaultsAndLoadError :
    let s : State := { start [] with stack := List.replicate 16 0x202 }
    (∃ t, exec (.call 0x300) s = .next t) ∧ s.fault = none ∧
      ({ s with fault := some ⟨.stackOverflow, 0x200, some 0x2300⟩ } : State).fault =
        some ⟨.stackOverflow, 0x200, some 0x2300⟩ ∧
      State.reset = State.reset.reboot ∧ 3584 < (List.replicate 3585 (0 : Byte)).length ∧ decodeWord 0x0000 = none :=
  ⟨exec_next _ _, by decide, rfl, rfl, by rw [List.length_replicate]; decide, by decide⟩

end Sys2Proof.Tests
end

section
/-! What an instruction does, in two parts that the statements about the elements of the state share: the fault it
takes, if it takes one, and its effect if it takes none. -/

namespace Sys2Proof.Machine

/-! ## The fault and the effect of an instruction -/

/-- The condition under which an instruction takes no fault (R200). -/
def completes (s : State) : Instr → Bool
  | .ret _ => s.stack ≠ []
  | .call _ => s.sp < 16
  | .skp x | .sknp x => (s.reg x).toNat ≤ 15
  | .drw _ _ n => n = 0 ∨ s.i.toNat + n - 1 ≤ 0xFFF
  | .ldB _ => s.i.toNat + 2 ≤ 0xFFF
  | .storeRegs x | .loadRegs x => s.i.toNat + x.val ≤ 0xFFF
  | _ => true

/-- The address a fault of an instruction records (R201 to R203, R206). -/
def State.faultAddress (s : State) : FaultKind → Word
  | .outOfBoundsMemoryAccess => s.outOfBoundsAddress
  | .stackUnderflow | .stackOverflow | .badKeyIndex => s.instrAddress

/-- The record of the fault the instruction takes, none if it completes. -/
def faultOf (i : Instr) (s : State) : Option FaultRecord :=
  bif completes s i then none else i.faultKind.map fun k => ⟨k, s.faultAddress k, some (encode i)⟩

/-- The state after an instruction that takes no fault. An instruction that has no fault at all is run by `exec`. -/
def complete (i : Instr) (s : State) : State :=
  match i with
  | .ret _ => { s with pc := s.stack.headD s.pc, stack := s.stack.tail }
  | .call nnn => { s with pc := immAddress nnn, stack := s.pc :: s.stack }
  | .skp x => s.skipIf (s.keys.getLsbD (s.reg x).toNat)
  | .sknp x => s.skipIf (!s.keys.getLsbD (s.reg x).toNat)
  | .drw x y n => { s.setFlag (s.drawn x y n).2 with fb := (s.drawn x y n).1 }
  | .ldB x => s.storeBytes s.i.toNat (bcdDigits (s.reg x))
  | .storeRegs x => s.storeBytes s.i.toNat (s.regsUpTo x)
  | .loadRegs x => { s with v := Registers.load s.config s.mem s.i.toNat (x.val + 1) s.v }
  | i =>
    match exec i s with
    | .next t => t
    | .fault _ | .refused _ => s

/-- An instruction whose fault has one condition completes, or takes that fault. -/
theorem exec_cases_of {i : Instr} {s : State} {k : FaultKind} {p q : Prop} [Decidable p]
    (h : (p ∧ exec i s = .next (complete i s)) ∨
      (q ∧ exec i s = .next { s with fault := some ⟨k, s.faultAddress k, some (encode i)⟩ }))
    (hk : i.faultKind = some k) (hp : completes s i = decide p) (hq : q → ¬p) :
    (faultOf i s = none ∧ exec i s = .next (complete i s)) ∨
    (∃ r, faultOf i s = some r ∧ exec i s = .next { s with fault := some r }) :=
  h.imp (fun ⟨hc, h⟩ => ⟨by simp [faultOf, hp, hc], h⟩) fun ⟨hc, h⟩ => ⟨_, by simp [faultOf, hk, hp, hq hc], h⟩

/-- Every instruction completes, or sets the latch to its fault and changes nothing else (R204). -/
theorem exec_cases (i : Instr) (s : State) :
    (faultOf i s = none ∧ exec i s = .next (complete i s)) ∨
    (∃ r, faultOf i s = some r ∧ exec i s = .next { s with fault := some r }) := by
  cases i with
  | ret ign =>
    obtain ⟨a, rest, hs, h⟩ | ⟨hs, h⟩ := execRet_cases ign s
    · exact .inl ⟨by simp [faultOf, completes, hs], by rw [exec, h]; simp [complete, hs]⟩
    · exact .inr ⟨_, by simp [faultOf, completes, Instr.faultKind, hs, State.faultAddress], h⟩
  | call nnn => exact exec_cases_of (execCall_cases nnn s) rfl rfl Nat.not_lt.mpr
  | ldB x => exact exec_cases_of (execLdB_cases x s) rfl rfl Nat.not_le.mpr
  | storeRegs x => exact exec_cases_of (execStoreRegs_cases x s) rfl rfl Nat.not_le.mpr
  | loadRegs x => exact exec_cases_of (execLoadRegs_cases x s) rfl rfl Nat.not_le.mpr
  | drw x y n =>
    exact exec_cases_of (execDrw_cases x y n s) rfl rfl fun ⟨h0, hi⟩ => not_or.mpr ⟨h0, Nat.not_le.mpr hi⟩
  | skp x => exact exec_cases_of (execSkp_cases x s) rfl rfl Nat.not_le.mpr
  | sknp x => exact exec_cases_of (execSknp_cases x s) rfl rfl Nat.not_le.mpr
  | _ => exact .inl ⟨rfl, rfl⟩

/-- The state an instruction leads to is that after its effect, or the old one with the latch set. -/
theorem next_cases {i : Instr} {s t : State} (h : exec i s = .next t) :
    (faultOf i s = none ∧ t = complete i s) ∨ (∃ r, faultOf i s = some r ∧ t = { s with fault := some r }) := by
  obtain ⟨hf, he⟩ | ⟨r, hf, he⟩ := exec_cases i s <;> cases he.symm.trans h
  · exact .inl ⟨hf, rfl⟩
  · exact .inr ⟨r, hf, rfl⟩

/-- What the record of a fault holds (R200 to R203, R206). -/
theorem faultOf_eq_some {i : Instr} {s : State} {r : FaultRecord} (h : faultOf i s = some r) :
    i.faultKind = some r.kind ∧ r.address = s.faultAddress r.kind ∧ r.opcode = some (encode i) := by
  unfold faultOf at h
  cases hc : completes s i <;> rw [hc] at h
  · obtain ⟨k, hk, rfl⟩ := Option.map_eq_some_iff.mp h
    exact ⟨hk, rfl, rfl⟩
  · cases h

/-- An instruction that has a fault and takes none meets the condition of `completes`. -/
theorem completes_of_faultOf {i : Instr} {s : State} {k : FaultKind} (hk : i.faultKind = some k)
    (h : faultOf i s = none) : completes s i = true := by
  unfold faultOf at h
  cases hc : completes s i
  · rw [hc, hk] at h; cases h
  · rfl

/-! ## The elements an instruction leaves as they were (R12 to R27, R50) -/

section Frame

variable {i : Instr} (s : State)

@[simp] theorem complete_config : (complete i s).config = s.config := by cases i <;> rfl
@[simp] theorem complete_fault : (complete i s).fault = s.fault := by cases i <;> rfl
@[simp] theorem complete_keys : (complete i s).keys = s.keys := by cases i <;> rfl
@[simp] theorem complete_cycle : (complete i s).cycle = s.cycle := by cases i <;> rfl
@[simp] theorem complete_events : (complete i s).events = s.events := by cases i <;> rfl

theorem complete_pc (h : i.writesPc = false) : (complete i s).pc = s.pc := by
  cases i with
  | ret | jp | call | seImm | sneImm | seReg | sneReg | jpV0 | skp | sknp => cases h
  | _ => rfl

theorem complete_i (h : i.writesI = false) : (complete i s).i = s.i := by
  cases i with
  | ldI | addI | ldF => cases h
  | _ => rfl

theorem complete_mem (h : i.writesMem = false) : (complete i s).mem = s.mem := by
  cases i with
  | ldB | storeRegs => cases h
  | _ => rfl

theorem complete_stack (h : i.usesStack = false) : (complete i s).stack = s.stack := by
  cases i with
  | ret | call => cases h
  | _ => rfl

theorem complete_fb (h : i.writesFb = false) : (complete i s).fb = s.fb := by
  cases i with
  | cls | drw => cases h
  | _ => rfl

theorem complete_dt (h : ∀ x, i ≠ .ldDtVx x) : (complete i s).dt = s.dt := by
  cases i with
  | ldDtVx x => exact absurd rfl (h x)
  | _ => rfl

theorem complete_st (h : ∀ x, i ≠ .ldStVx x) : (complete i s).st = s.st := by
  cases i with
  | ldStVx x => exact absurd rfl (h x)
  | _ => rfl

theorem complete_kw (h : ∀ x, i ≠ .ldVxK x) : (complete i s).kw = s.kw := by
  cases i with
  | ldVxK x => exact absurd rfl (h x)
  | _ => rfl

theorem complete_ports (h : ∀ x nn, i ≠ .rnd x nn) : (complete i s).ports = s.ports := by
  cases i with
  | rnd x nn => exact absurd rfl (h x nn)
  | _ => rfl

end Frame

/-- No instruction writes the parameters (R6). -/
theorem exec_config {i : Instr} {s t : State} (h : exec i s = .next t) : t.config = s.config := by
  obtain ⟨-, rfl⟩ | ⟨r, -, rfl⟩ := next_cases h
  · exact complete_config s
  · rfl

/-- Settles O37: an instruction that takes a fault changes the latch alone, and one that completes leaves every element
it is not a writer of. -/
theorem onlyNamedInstructionsChangeEachElement : Obligations.OnlyNamedInstructionsChangeEachElement := by
  intro i s t h
  obtain ⟨-, rfl⟩ | ⟨r, hr, rfl⟩ := next_cases h
  · exact ⟨complete_pc s, complete_i s, complete_mem s, complete_stack s, complete_fb s, complete_dt s, complete_st s,
      complete_kw s, complete_ports s, fun _ => complete_fault s, complete_config s, complete_keys s, complete_cycle s,
      complete_events s⟩
  · simp [(faultOf_eq_some hr).1]

/-! ## The general registers (R12 to R14) -/

/-- An instruction that completes leaves every register but its destinations. -/
theorem complete_reg {i : Instr} {r : Reg} (s : State) (h : i.writesReg r = false) :
    (complete i s).reg r = s.reg r := by
  cases i with
  | ldImm | addImm | ldReg | orReg | andReg | xorReg | rnd | ldVxDt =>
    exact State.reg_setReg_ne s _ (beq_eq_false_iff_ne.mp h)
  | addReg | subReg | shr | subnReg | shl =>
    obtain ⟨hx, hf⟩ := Bool.or_eq_false_iff.mp h
    exact State.reg_writeResult_ne s _ _ (beq_eq_false_iff_ne.mp hx) (beq_eq_false_iff_ne.mp hf)
  | drw => exact State.reg_setFlag_ne s _ (beq_eq_false_iff_ne.mp h)
  | loadRegs x =>
    have hx : ¬r.val < x.val + 1 := by simpa [Instr.writesReg, Nat.lt_succ_iff] using h
    exact (Registers.getElem_load s.mem s.i.toNat (x.val + 1) s.v r.val r.isLt).trans (if_neg hx)
  | _ => rfl

/-- One of the six leaves a flag in VF (R13, R121). -/
theorem complete_flag {i : Instr} (s : State) (h : i.definesFlag = true) :
    ∃ b, (complete i s).reg 15 = flagByte b := by
  cases i with
  | addReg | subReg | shr | subnReg | shl => exact ⟨_, State.reg_writeResult_flag ..⟩
  | drw => exact ⟨_, State.reg_setFlag_same ..⟩
  | _ => cases h

/-- Settles O36, by the frame of an instruction that completes; one that takes a fault changes no register. -/
theorem onlyDestinationRegistersChange : Obligations.OnlyDestinationRegistersChange := by
  intro i s t h
  obtain ⟨-, rfl⟩ | ⟨r, -, rfl⟩ := next_cases h
  · refine ⟨fun r => complete_reg s, fun hd _ _ => ?_⟩
    obtain ⟨b, hb⟩ := complete_flag s hd
    cases b
    · exact .inl hb
    · exact .inr hb
  · exact ⟨fun _ _ => rfl, fun _ _ hf => nomatch hf⟩

/-! ## The program counter and the stack (R17 to R22) -/

theorem State.skipIf_pc_cases (s : State) (b : Bool) : (s.skipIf b).pc = s.pc ∨ (s.skipIf b).pc = s.pc + 2 := by
  cases b
  · exact .inl rfl
  · exact .inr rfl

/-- Where an instruction that completes leaves `pc`: as otherwise, past a skipped word, at the most recent return
address, or at its target. -/
theorem complete_pc_cases (i : Instr) (s : State) :
    (complete i s).pc = s.pc ∨ (complete i s).pc = s.pc + 2 ∨ (complete i s).pc ∈ s.stack ∨
    (∃ nnn, (i = .jp nnn ∨ i = .call nnn) ∧ (complete i s).pc = immAddress nnn) ∨
    (∃ nnn, i = .jpV0 nnn ∧ (complete i s).pc = immAddress nnn + regWord (s.reg 0)) := by
  cases i with
  | ret =>
    cases hs : s.stack with
    | nil => exact .inl (by simp [complete, hs])
    | cons a rest => exact .inr (.inr (.inl (by simp [complete, hs])))
  | jp nnn => exact .inr (.inr (.inr (.inl ⟨nnn, .inl rfl, rfl⟩)))
  | call nnn => exact .inr (.inr (.inr (.inl ⟨nnn, .inr rfl, rfl⟩)))
  | jpV0 nnn => exact .inr (.inr (.inr (.inr ⟨nnn, rfl, rfl⟩)))
  | seImm | sneImm | seReg | sneReg | skp | sknp => exact (State.skipIf_pc_cases s _).imp_right .inl
  | _ => exact .inl rfl

/-- Every entry of the stack after an instruction that completes is an old one, or the `pc` a call pushed. -/
theorem mem_complete_stack {i : Instr} {s : State} {a : Word} (h : a ∈ (complete i s).stack) :
    a = s.pc ∨ a ∈ s.stack := by
  cases i with
  | ret => exact .inr (List.mem_of_mem_tail h)
  | call => exact List.mem_cons.mp h
  | _ => exact .inr h

/-- The stack stays within its 16 entries (R19). -/
theorem complete_sp_le {i : Instr} {s : State} (hf : faultOf i s = none) (h : s.sp ≤ 16) : (complete i s).sp ≤ 16 := by
  cases i with
  | ret =>
    have := List.length_tail (l := s.stack)
    simp only [State.sp] at h
    simp only [State.sp, complete]
    omega
  | call => exact of_decide_eq_true (completes_of_faultOf rfl hf)
  | _ => exact h

theorem toNat_immAddress (nnn : Addr12) : (immAddress nnn).toNat = nnn.toNat := by
  simp [immAddress]; omega

/-- The target of `BNNN` does not wrap (R108). -/
theorem toNat_offsetTarget (nnn : Addr12) (w : Byte) :
    (immAddress nnn + regWord w).toNat = nnn.toNat + w.toNat := by
  simp [immAddress, regWord]; omega

/-- Settles O40, by the five ways of `pc`. -/
theorem evenTargetsKeepPcEven : Obligations.EvenTargetsKeepPcEven := by
  intro i s t h hpc hstack htarget hoffset
  obtain ⟨-, rfl⟩ | ⟨r, -, rfl⟩ := next_cases h
  · constructor
    · obtain hp | hp | hp | ⟨nnn, hi, hp⟩ | ⟨nnn, hi, hp⟩ := complete_pc_cases i s
      · rw [hp]; exact hpc
      · rw [hp, BitVec.toNat_add]; simp; omega
      · exact hstack _ hp
      · rw [hp, toNat_immAddress]; exact htarget nnn hi
      · rw [hp, toNat_offsetTarget]; exact hoffset nnn hi
    · intro a ha
      obtain rfl | ha := mem_complete_stack ha
      · exact hpc
      · exact hstack a ha
  · exact ⟨hpc, hstack⟩

/-! ## The invariant (R35) -/

/-- The record of an instruction's fault meets the invariant's clause on it (R201 to R203, R206). -/
theorem faultOf_record {i : Instr} {s : State} {r : FaultRecord} (h : faultOf i s = some r) :
    if r.kind = .outOfBoundsMemoryAccess then 0x1000 ≤ r.address.toNat else r.opcode.isSome = true := by
  obtain ⟨-, ha, ho⟩ := faultOf_eq_some h
  split
  · next hk =>
    have : r.address = s.outOfBoundsAddress := by simpa [hk, State.faultAddress] using ha
    rw [this, State.outOfBoundsAddress_toNat]
    exact Nat.le_max_right _ _
  · simp [ho]

/-- An instruction that completes keeps memory in canonical form: its stores are inside memory (R48). -/
theorem complete_mem_wf {i : Instr} {s : State} (hf : faultOf i s = none) (h : Memory.wf s.config s.mem = true) :
    Memory.wf s.config (complete i s).mem = true := by
  cases i with
  | ldB x =>
    have hc : s.i.toNat + 2 ≤ 0xFFF := of_decide_eq_true (completes_of_faultOf rfl hf)
    exact Memory.wf_writeBytes _ h (by simp [bcdDigits]; omega)
  | storeRegs x =>
    have hc : s.i.toNat + x.val ≤ 0xFFF := of_decide_eq_true (completes_of_faultOf rfl hf)
    exact Memory.wf_writeBytes _ h (by simp; omega)
  | _ => exact h

/-- An instruction keeps the invariant, from a state whose `pc` a fetch has advanced and with no beep in the events. -/
theorem State.Inv.of_exec {i : Instr} {s t : State} (hs : s.Inv) (hpc : s.pc.toNat ≤ 0x1000) (hb : Event.beep ∉ s.events)
    (h : exec i s = .next t) : t.Inv := by
  obtain ⟨hf, rfl⟩ | ⟨r, hf, rfl⟩ := next_cases h
  · exact {
      mem_wf := by simpa using complete_mem_wf hf hs.mem_wf
      pc_le := by
        obtain hp | hp | hp | ⟨nnn, -, hp⟩ | ⟨nnn, -, hp⟩ := complete_pc_cases i s
        · rw [hp]; exact hs.pc_le
        · rw [hp, BitVec.toNat_add]; simp; omega
        · exact (hs.stack_le _ hp).trans (by decide)
        · rw [hp, toNat_immAddress]; omega
        · rw [hp, toNat_offsetTarget]; omega
      sp_le := complete_sp_le hf hs.sp_le
      stack_le := fun a ha => (mem_complete_stack ha).elim (fun e => e ▸ hpc) (hs.stack_le a)
      cycle_le := by simpa using hs.cycle_le
      beep_last := by simp [hb]
      beep_once := by simpa using hs.beep_once
      fault_record := by simpa using hs.fault_record }
  · exact { hs with
      beep_last := fun h => absurd h hb
      fault_record := fun r' hr => by cases hr; exact faultOf_record hf }

/-- No beep stands in the event list while the cycles of a tick run (R210, R212). -/
theorem State.Inv.beep_notMem_beginTick {s : State} (hs : s.Inv) : Event.beep ∉ s.beginTick.events := by
  by_cases hc : s.cycle = 0
  · simp [State.beginTick_of_zero s hc]
  · rw [State.beginTick_of_pos s hc]
    exact fun hb => hc (hs.beep_last hb).1

/-- The key-wait gate changes nothing the invariant speaks of (R83 to R85). -/
theorem State.Inv.of_keyGate {s u : State} (hs : s.Inv) (h : s.keyGate = some u) :
    u.Inv ∧ u.pc = s.pc ∧ u.events = s.events ∧ u.config = s.config := by
  obtain ⟨-, hg⟩ | ⟨r, -, -, hg⟩ | ⟨r, k, -, -, hg⟩ := State.keyGate_cases s <;> cases hg.symm.trans h
  · exact ⟨hs, rfl, rfl, rfl⟩
  · exact ⟨{ hs with }, rfl, rfl, rfl⟩

/-- A cycle keeps the invariant, with no beep in the events. -/
theorem State.Inv.of_runCycle {s t : State} (hs : s.Inv) (hb : Event.beep ∉ s.events) (h : s.runCycle = .next t) :
    t.Inv ∧ t.config = s.config := by
  obtain ⟨-, hr⟩ | ⟨op, -, -, hr⟩ | ⟨op, u, hfetch, hg, hr⟩ := State.runCycle_cases s
  · cases hr.symm.trans h
    exact ⟨{ hs with
      beep_last := fun h => absurd h hb
      fault_record := fun r hr => by cases hr; simp [State.fetchFaultAddress_toNat] }, rfl⟩
  · cases hr.symm.trans h
    exact ⟨hs, rfl⟩
  · have hpc : s.advance.pc.toNat ≤ 0x1000 := by
      have hne : ¬0xFFE < s.pc.toNat := fun hlt => by simp [State.fetch_eq_none.mpr hlt] at hfetch
      rw [State.advance_pc, BitVec.toNat_add]; simp; omega
    have ha : s.advance.Inv := { hs with pc_le := hpc.trans (by decide) }
    obtain ⟨hu, hupc, hue, huc⟩ := ha.of_keyGate hg
    have hub : Event.beep ∉ u.events := hue ▸ hb
    obtain ⟨i, -, he⟩ | ⟨-, he⟩ := executeWord_cases op u
    · have ht : exec i u = .next t := he.symm.trans (hr.symm.trans h)
      exact ⟨hu.of_exec (hupc ▸ hpc) hub ht, (exec_config ht).trans huc⟩
    · cases he.symm.trans (hr.symm.trans h)
      exact ⟨{ hu with
        beep_last := by simp [hub]
        beep_once := by simp [List.count_eq_zero.mpr hub] }, huc⟩

/-- Beginning a tick and counting its cycle keep the invariant (R87). -/
theorem State.Inv.startCycle {s : State} (hs : s.Inv) (hc : s.cycle < s.config.cyclesPerTick) : s.startCycle.Inv where
  mem_wf := by simpa using hs.mem_wf
  pc_le := by simpa using hs.pc_le
  sp_le := by simpa [State.sp] using hs.sp_le
  stack_le := by simpa using hs.stack_le
  cycle_le := by simpa using hc
  beep_last := fun hb => absurd hb hs.beep_notMem_beginTick
  beep_once := by simp [List.count_eq_zero.mpr hs.beep_notMem_beginTick]
  fault_record := by simpa using hs.fault_record

/-- The timer step keeps the invariant: it adds the one beep of its tick (R88, R210). -/
theorem State.Inv.endTick {s : State} (hs : s.Inv) (hf : s.fault = none) : s.endTick.Inv where
  mem_wf := by simpa using hs.mem_wf
  pc_le := by simpa using hs.pc_le
  sp_le := by simpa [State.sp] using hs.sp_le
  stack_le := by simpa using hs.stack_le
  cycle_le := by simp
  beep_last := by simp [hf]
  beep_once := by
    have hb := List.count_eq_zero.mpr hs.beep_notMem_beginTick
    rw [State.endTick_events]
    split <;> simp [hb]
  fault_record := by simp [hf]

/-- Settles O50: a cycle keeps the invariant once the tick has begun, and so does the timer step. -/
theorem stepKeepsInvariant : Obligations.StepKeepsInvariant := by
  intro s t hs h
  obtain ⟨hf, ⟨hc, hr⟩ | ⟨-, rfl⟩⟩ := step_cases h
  · obtain ⟨ht, hcfg⟩ := (hs.startCycle hc).of_runCycle hs.beep_notMem_beginTick hr
    exact ⟨ht, hcfg.trans (State.startCycle_config s)⟩
  · exact ⟨hs.endTick hf, State.endTick_config s⟩

/-- The reset state meets the invariant, whatever the parameters and the inputs. -/
theorem State.inv_resetWith (c : Config) (p : Ports) : (State.resetWith c p).Inv where
  mem_wf := rfl
  pc_le := show (0x200 : Word).toNat ≤ 0x10FE by decide
  sp_le := Nat.zero_le 16
  stack_le := by simp [State.resetWith]
  cycle_le := Nat.zero_le _
  beep_last := by simp [State.resetWith]
  beep_once := Nat.zero_le 1
  fault_record := by simp [State.resetWith]

/-- Settles O8. -/
theorem resetSatisfiesInvariant : Obligations.ResetSatisfiesInvariant :=
  ⟨State.inv_resetWith, State.inv_resetWith _ _⟩

/-! ## Reset (R34, R230) -/

/-- Settles O7: memory reads as the reset contents, by the address's place in the font; every other element holds its
reset value as it stands. -/
theorem resetFromAnyState : Obligations.ResetFromAnyState := by
  intro s
  have hread (a : Nat) : s.reboot.readByte a = Memory.resetByte s.config a := rfl
  refine ⟨fun a ha => ?_, fun a ha _ => ?_, rfl, rfl, fun a h1 h3 => ?_, rfl, fun r => ?_, rfl, rfl, rfl, rfl, rfl, rfl,
    rfl, rfl, rfl, rfl, rfl⟩
  · have h5 : ¬5 + a < 5 := by omega
    have h80 : 5 + a < 80 := by omega
    simp [hread, Memory.resetByte, h80]
  · have h5 : ¬a < 5 := by omega
    have h80 : ¬a < 80 := by omega
    simp [hread, Memory.resetByte, h5, h80]
  · obtain rfl | rfl | rfl : a = 1 ∨ a = 2 ∨ a = 3 := by omega
    all_goals rfl
  · simp [State.reg]

/-! ## Calls and returns (R21, R101, R103) -/

/-- A return after returns that did not fault. -/
theorem execReturns_succ {n : Nat} {s t u : State} (h : Claims.execReturns n s = .next t) (ht : t.fault = none)
    (hu : exec (.ret 0) t = .next u) : Claims.execReturns (n + 1) s = .next u := by
  induction n generalizing s with
  | zero =>
    cases h
    rw [Claims.execReturns, hu]
    simp [Claims.execReturns]
  | succ n ih =>
    rw [Claims.execReturns] at h
    obtain ⟨s', hs'⟩ := exec_next (.ret 0) s
    rw [hs'] at h
    by_cases hf : s'.fault = none
    · have hr : Claims.execReturns n s' = .next t := by simpa [hf] using h
      rw [Claims.execReturns, hs']
      simpa [hf] using ih hr
    · simp only [hf, if_false] at h
      cases h
      exact absurd ht hf

/-- Settles O16, by induction on the calls: the last return undoes the first call. -/
theorem callsThenReturnsComeBack : Obligations.CallsThenReturnsComeBack := by
  intro targets
  induction targets with
  | nil => exact fun s _ _ => ⟨s, rfl, rfl, rfl⟩
  | cons a as ih =>
    intro s hf hsp
    rw [List.length_cons] at hsp
    obtain ⟨-, hcall⟩ | ⟨hfull, -⟩ := execCall_cases a s
    · obtain ⟨t, hcalls, htsp, hreturns⟩ := ih { s with pc := immAddress a, stack := s.pc :: s.stack } hf
        (by simp only [State.sp, List.length_cons] at hsp ⊢; omega)
      refine ⟨t, ?_, ?_, execReturns_succ hreturns hf rfl⟩
      · rw [Claims.execCalls, exec, hcall]
        simpa [hf] using hcalls
      · simp only [State.sp, List.length_cons] at htsp ⊢
        omega
    · omega

/-! ## The framebuffer read (R23, R95) -/

/-- The host's read is the rows one after the other. -/
theorem State.framebufferRead_eq (s : State) : s.framebufferRead = s.fb.flatten.toList := by
  rcases hfb : s.fb with ⟨rows, hrows⟩
  simp only [State.framebufferRead, hfb, Vector.flatten_mk, Vector.toList_mk, Array.toList_flatten, Array.toList_map,
    List.map_map]
  rfl

/-- Settles O32: the rows are 32 of 64 pixels each. -/
theorem framebufferReadIsRowMajor : Obligations.FramebufferReadIsRowMajor := by
  intro s
  rw [State.framebufferRead_eq]
  refine ⟨Vector.length_toList, fun x y hx hy => ?_⟩
  have hlt : y * 64 + x < 32 * 64 := by omega
  have hdiv : (y * 64 + x) / 64 = y := by omega
  have hmod : (y * 64 + x) % 64 = x := by omega
  rw [Vector.getElem?_toList, Vector.getElem?_eq_getElem hlt, Vector.getElem_flatten hlt]
  simp only [hdiv, hmod, Framebuffer.pixel, hx, hy, and_self, dite_true]

/-! ## What an instruction does not read (R12 to R27, R50, R71, R93, R94) -/

/-- The fault of an instruction depends on nothing but what it reads, and on `pc` where the record holds the address the
instruction was fetched from. -/
theorem faultOf_congr {i : Instr} {s u : State} (hreg : ∀ r, i.readsReg r = true → u.reg r = s.reg r)
    (hi : i.readsI = true → u.i = s.i) (hpc : i.writesPc = true → u.pc = s.pc)
    (hstack : i.usesStack = true → u.stack = s.stack) : faultOf i u = faultOf i s := by
  cases i with
  | ret =>
    simp only [faultOf, completes, Instr.faultKind, Option.map_some, State.faultAddress, State.instrAddress, hpc rfl,
      hstack rfl]
  | call =>
    have hsp : u.sp = s.sp := congrArg List.length (hstack rfl)
    simp only [faultOf, completes, Instr.faultKind, Option.map_some, State.faultAddress, State.instrAddress, hpc rfl, hsp]
  | skp x | sknp x =>
    simp only [faultOf, completes, Instr.faultKind, Option.map_some, State.faultAddress, State.instrAddress, hpc rfl,
      hreg x (beq_self_eq_true x)]
  | ldB | storeRegs | loadRegs =>
    simp only [faultOf, completes, Instr.faultKind, Option.map_some, State.faultAddress, State.outOfBoundsAddress, hi rfl]
  | drw x y n =>
    by_cases hn : n = 0
    · simp [faultOf, completes, hn]
    · simp only [faultOf, completes, Instr.faultKind, Option.map_some, State.faultAddress, State.outOfBoundsAddress,
        hi (bne_iff_ne.mpr hn)]
  | _ => rfl

theorem exec_of_faultOf_none {i : Instr} {s : State} (h : faultOf i s = none) : exec i s = .next (complete i s) := by
  obtain ⟨-, he⟩ | ⟨r, hr, -⟩ := exec_cases i s
  · exact he
  · cases hr.symm.trans h

theorem exec_of_faultOf_some {i : Instr} {s : State} {r : FaultRecord} (h : faultOf i s = some r) :
    exec i s = .next { s with fault := some r } := by
  obtain ⟨hn, -⟩ | ⟨r', hr, he⟩ := exec_cases i s
  · cases hn.symm.trans h
  · cases hr.symm.trans h
    exact he

/-- In a core that is not faulted, the latch after an instruction shows its fault. -/
theorem fault_eq_faultOf {i : Instr} {s t : State} (h : exec i s = .next t) (hs : s.fault = none) :
    t.fault = faultOf i s := by
  obtain ⟨hf, rfl⟩ | ⟨r, hf, rfl⟩ := next_cases h
  · rw [complete_fault, hs, hf]
  · exact hf.symm

/-- A change that neither the fault of an instruction nor the latch sees, and that its effect carries over, is there
after it. -/
theorem carries_of {i : Instr} {s t : State} {put : State → State} (h : exec i s = .next t)
    (hfault : faultOf i (put s) = faultOf i s)
    (hlatch : ∀ f, put { s with fault := f } = { put s with fault := f })
    (hput : faultOf i s = none → complete i (put s) = put (complete i s)) : Claims.Carries i s t put := by
  obtain ⟨hf, rfl⟩ | ⟨r, hf, rfl⟩ := next_cases h
  · exact (exec_of_faultOf_none (hfault.trans hf)).trans (congrArg _ (hput hf))
  · exact (exec_of_faultOf_some (hfault.trans hf)).trans (congrArg _ (hlatch _).symm)

section Effect

variable {i : Instr} (s : State)

theorem complete_withI (i' : Word) (hr : i.readsI = false) (hw : i.writesI = false) :
    complete i { s with i := i' } = { complete i s with i := i' } := by
  cases i with
  | addI | ldB | storeRegs | loadRegs => cases hr
  | ldI | ldF => cases hw
  | drw x y n =>
    obtain rfl : n = 0 := by simpa [Instr.readsI] using hr
    rfl
  | _ => rfl

theorem complete_overwritesI (i' : Word) (hr : i.readsI = false) (hw : i.writesI = true) :
    complete i { s with i := i' } = complete i s := by
  cases i with
  | ldI | ldF => rfl
  | addI => cases hr
  | _ => cases hw

theorem complete_withPc (pc' : Word) (h : i.writesPc = false) :
    complete i { s with pc := pc' } = { complete i s with pc := pc' } := by
  cases i with
  | ret | jp | call | seImm | sneImm | seReg | sneReg | jpV0 | skp | sknp => cases h
  | _ => rfl

theorem complete_withMem (m : Memory) (hr : i.readsMem = false) (hw : i.writesMem = false) :
    complete i { s with mem := m } = { complete i s with mem := m } := by
  cases i with
  | loadRegs => cases hr
  | ldB | storeRegs => cases hw
  | drw x y n =>
    obtain rfl : n = 0 := by simpa [Instr.readsMem] using hr
    rfl
  | _ => rfl

/-- The old memory influences memory alone in a store. -/
theorem complete_store_withMem (m : Memory) (hw : i.writesMem = true) :
    complete i { s with mem := m } = { complete i s with mem := (complete i { s with mem := m }).mem } := by
  cases i with
  | ldB | storeRegs => rfl
  | _ => cases hw

theorem complete_withStack (k : List Word) (h : i.usesStack = false) :
    complete i { s with stack := k } = { complete i s with stack := k } := by
  cases i with
  | ret | call => cases h
  | _ => rfl

theorem complete_withFb (fb' : Framebuffer) (h : i.writesFb = false) :
    complete i { s with fb := fb' } = { complete i s with fb := fb' } := by
  cases i with
  | cls | drw => cases h
  | _ => rfl

theorem complete_withDt (b : Byte) (h : ∀ x, i ≠ .ldVxDt x ∧ i ≠ .ldDtVx x) :
    complete i { s with dt := b } = { complete i s with dt := b } := by
  cases i with
  | ldVxDt x => exact absurd rfl (h x).1
  | ldDtVx x => exact absurd rfl (h x).2
  | _ => rfl

theorem complete_withSt (b : Byte) (h : ∀ x, i ≠ .ldStVx x) :
    complete i { s with st := b } = { complete i s with st := b } := by
  cases i with
  | ldStVx x => exact absurd rfl (h x)
  | _ => rfl

theorem complete_withKw (kw' : KeyWait) (h : ∀ x, i ≠ .ldVxK x) :
    complete i { s with kw := kw' } = { complete i s with kw := kw' } := by
  cases i with
  | ldVxK x => exact absurd rfl (h x)
  | _ => rfl

theorem complete_withKeys (ks : KeyState) (h : i.readsKeys = false) :
    complete i { s with keys := ks } = { complete i s with keys := ks } := by
  cases i with
  | skp | sknp => cases h
  | _ => rfl

theorem complete_withPorts (p : Ports) (h : ∀ x nn, i ≠ .rnd x nn) :
    complete i { s with ports := p } = { complete i s with ports := p } := by
  cases i with
  | rnd x nn => exact absurd rfl (h x nn)
  | _ => rfl

theorem complete_withFault (f : Option FaultRecord) :
    complete i { s with fault := f } = { complete i s with fault := f } := by
  cases i <;> rfl

theorem complete_withEvents (es : List Event) :
    complete i { s with events := es } = { complete i s with events := es } := by
  cases i <;> rfl

/-- Of the parameters the instructions see the font alone, and that through memory. -/
theorem complete_withConfig {c : Config} (h : c.fontTail = s.config.fontTail ∨ i.readsMem = false ∧ i.writesMem = false) :
    complete i { s with config := c } = { complete i s with config := c } := by
  cases i with
  | ldB x =>
    have hfont := h.resolve_right fun hn => nomatch hn.2
    exact congrArg (fun m => ({ s with config := c, mem := m } : State)) (Memory.writeBytes_font hfont ..)
  | storeRegs x =>
    have hfont := h.resolve_right fun hn => nomatch hn.2
    exact congrArg (fun m => ({ s with config := c, mem := m } : State)) (Memory.writeBytes_font hfont ..)
  | loadRegs x =>
    have hfont := h.resolve_right fun hn => nomatch hn.1
    exact congrArg (fun v => ({ s with config := c, v := v } : State)) (Registers.load_font hfont ..)
  | drw x y n =>
    obtain hfont | ⟨hn, -⟩ := h
    · simp [complete, State.drawn, State.setFlag, State.setReg, State.reg, State.base, Memory.readBytes_font hfont]
    · obtain rfl : n = 0 := by simpa [Instr.readsMem] using hn
      rfl
  | _ => rfl

/-- The number of cycles in a tick is the driver's alone (R6, R87). -/
theorem complete_withCyclesPerTick (n : Nat) :
    complete i { s with config := { s.config with cyclesPerTick := n } } =
      { complete i s with config := { (complete i s).config with cyclesPerTick := n } } := by
  rw [complete_config]
  exact complete_withConfig s (.inl rfl)

end Effect

/-! ### The registers an instruction does not read -/

/-- A state that differs from another in the register file at most, and in no register, is that other state. -/
theorem State.eq_of_regs {s t : State} (h : t = { s with v := t.v }) (hreg : ∀ q, t.reg q = s.reg q) : t = s := by
  have hv : t.v = s.v := Vector.ext fun k hk => hreg ⟨k, hk⟩
  rw [h, hv]

theorem State.reg_setReg_eq {s u : State} {x q : Reg} {w w' : Byte} (hw : w' = w) (h : q = x) :
    (u.setReg x w').reg q = (s.setReg x w).reg q := by
  subst hw h
  rw [State.reg_setReg_same, State.reg_setReg_same]

theorem State.reg_writeResult_eq {s u : State} {x q : Reg} {w w' : Byte} {b b' : Bool} (hw : w' = w) (hb : b' = b)
    (h : q = x ∨ q = 15) : (u.writeResult x w' b').reg q = (s.writeResult x w b).reg q := by
  subst hw hb
  by_cases hq : q = 15
  · subst hq
    rw [State.reg_writeResult_flag, State.reg_writeResult_flag]
  · obtain rfl := h.resolve_right hq
    rw [State.reg_writeResult_dest _ _ _ hq, State.reg_writeResult_dest _ _ _ hq]

section Registers

variable {i : Instr} (s : State) {r : Reg} (w : Byte)

/-- A write to a register the instruction does not read leaves its operands. -/
theorem reg_setReg_of_reads {q : Reg} (hr : i.readsReg r = false) (hq : i.readsReg q = true) :
    (s.setReg r w).reg q = s.reg q :=
  State.reg_setReg_ne s w fun e => by simp [e, hr] at hq

theorem faultOf_setReg (hr : i.readsReg r = false) : faultOf i (s.setReg r w) = faultOf i s :=
  faultOf_congr (fun _ => reg_setReg_of_reads s w hr) (fun _ => rfl) (fun _ => rfl) fun _ => rfl

theorem drawn_setReg {x y : Reg} {n : Nat} (hr : (Instr.drw x y n).readsReg r = false) :
    (s.setReg r w).drawn x y n = s.drawn x y n := by
  simp [State.drawn, State.base, reg_setReg_of_reads s w hr (q := x) (by simp [Instr.readsReg]),
    reg_setReg_of_reads s w hr (q := y) (by simp [Instr.readsReg])]

theorem regsUpTo_setReg {x : Reg} (h : x < r) : (s.setReg r w).regsUpTo x = s.regsUpTo x := by
  simp [State.regsUpTo, Vector.toList_set, List.take_set_of_le (show x.val + 1 ≤ r.val from h)]

/-- A register an instruction does not read influences no element but the register file. -/
theorem complete_setReg_onlyRegs (hr : i.readsReg r = false) :
    Claims.OnlyRegs (complete i s) (complete i (s.setReg r w)) := by
  have hreg (q : Reg) (hq : i.readsReg q = true) := reg_setReg_of_reads s w hr hq
  cases i with
  | seImm x | sneImm x | skp x | sknp x | ldDtVx x | ldStVx x | addI x | ldF x | ldB x =>
    have hx := hreg x (beq_self_eq_true x)
    simp only [Claims.OnlyRegs, complete, exec, execSeImm, execSneImm, execLdDtVx, execLdStVx, execAddI, execLdF, hx]
    rfl
  | seReg x y | sneReg x y =>
    have hx := hreg x (by simp [Instr.readsReg])
    have hy := hreg y (by simp [Instr.readsReg])
    simp only [Claims.OnlyRegs, complete, exec, execSeReg, execSneReg, hx, hy]
    rfl
  | jpV0 nnn =>
    simp only [Claims.OnlyRegs, complete, exec, execJpV0, hreg 0 (beq_self_eq_true 0)]
    rfl
  | drw x y n =>
    simp only [Claims.OnlyRegs, complete, drawn_setReg s w hr]
    rfl
  | storeRegs x =>
    have hx : x < r := by simpa [Instr.readsReg] using hr
    simp only [Claims.OnlyRegs, complete, regsUpTo_setReg s w hx]
    rfl
  | _ => rfl

/-- What an instruction writes to a register depends on the registers it reads alone. -/
theorem complete_setReg_written {q : Reg} (hr : i.readsReg r = false) (hq : i.writesReg q = true) :
    (complete i (s.setReg r w)).reg q = (complete i s).reg q := by
  have hreg (q : Reg) (hq : i.readsReg q = true) := reg_setReg_of_reads s w hr hq
  cases i with
  | ldImm | rnd | ldVxDt => exact State.reg_setReg_eq rfl (eq_of_beq hq)
  | addImm x => exact State.reg_setReg_eq (by rw [hreg x (beq_self_eq_true x)]) (eq_of_beq hq)
  | ldReg x y => exact State.reg_setReg_eq (hreg y (beq_self_eq_true y)) (eq_of_beq hq)
  | orReg x y | andReg x y | xorReg x y =>
    have hx := hreg x (by simp [Instr.readsReg])
    have hy := hreg y (by simp [Instr.readsReg])
    exact State.reg_setReg_eq (by rw [hx, hy]) (eq_of_beq hq)
  | addReg x y | subReg x y | subnReg x y =>
    have hx := hreg x (by simp [Instr.readsReg])
    have hy := hreg y (by simp [Instr.readsReg])
    exact State.reg_writeResult_eq (by rw [hx, hy]) (by rw [hx, hy]) (by simpa [Instr.writesReg] using hq)
  | shr x | shl x =>
    have hx := hreg x (beq_self_eq_true x)
    exact State.reg_writeResult_eq (by rw [hx]) (by rw [hx]) (by simpa [Instr.writesReg] using hq)
  | drw => exact State.reg_setReg_eq (by rw [drawn_setReg s w hr]) (eq_of_beq hq)
  | loadRegs x =>
    have hx : q.val < x.val + 1 := by simpa [Instr.writesReg, Nat.lt_succ_iff] using hq
    have hload (v : Registers) := Registers.getElem_load (c := s.config) s.mem s.i.toNat (x.val + 1) v q.val q.isLt
    exact (hload _).trans ((if_pos hx).trans ((hload _).trans (if_pos hx)).symm)
  | _ => cases hq

/-- A register an instruction neither reads nor writes is carried over. -/
theorem complete_setReg_carries (hr : i.readsReg r = false) (hw : i.writesReg r = false) :
    complete i (s.setReg r w) = (complete i s).setReg r w := by
  refine State.eq_of_regs (complete_setReg_onlyRegs s w hr) fun q => ?_
  by_cases hqr : q = r
  · subst hqr
    rw [complete_reg _ hw, State.reg_setReg_same, State.reg_setReg_same]
  · rw [State.reg_setReg_ne _ _ hqr]
    cases hq : i.writesReg q
    · rw [complete_reg _ hq, complete_reg _ hq, State.reg_setReg_ne _ _ hqr]
    · exact complete_setReg_written s w hr hq

/-- A register an instruction writes without reading it is overwritten. -/
theorem complete_setReg_overwrites (hr : i.readsReg r = false) (hw : i.writesReg r = true) :
    complete i (s.setReg r w) = complete i s := by
  refine State.eq_of_regs (complete_setReg_onlyRegs s w hr) fun q => ?_
  cases hq : i.writesReg q
  · have hqr : q ≠ r := fun e => by simp [e, hw] at hq
    rw [complete_reg _ hq, complete_reg _ hq, State.reg_setReg_ne _ _ hqr]
  · exact complete_setReg_written s w hr hq

end Registers

/-- A register an instruction does not read is carried over, or overwritten where it writes it and completes. -/
theorem unreadRegister {i : Instr} {s t : State} {r : Reg} (w : Byte) (h : exec i s = .next t)
    (hr : i.readsReg r = false) :
    (i.writesReg r = false → Claims.Carries i s t fun u => u.setReg r w) ∧
    (i.writesReg r = true → s.fault = none →
      (t.fault = none → Claims.Overwrites i s t fun u => u.setReg r w) ∧
      (t.fault ≠ none → Claims.Carries i s t fun u => u.setReg r w)) := by
  have hfault := faultOf_setReg s w hr
  refine ⟨fun hw => carries_of h hfault (fun _ => rfl) fun _ => complete_setReg_carries s w hr hw, fun hw hs => ?_⟩
  rw [fault_eq_faultOf h hs]
  refine ⟨fun hf => ?_, fun hf => carries_of h hfault (fun _ => rfl) fun hn => absurd hn hf⟩
  rw [exec_of_faultOf_none hf] at h
  exact (exec_of_faultOf_none (hfault.trans hf)).trans
    ((congrArg _ (complete_setReg_overwrites s w hr hw)).trans h)

/-- The old memory is carried over, or influences memory alone in a store. -/
theorem unreadMemory {i : Instr} {s t : State} (m : Memory) (h : exec i s = .next t) (hr : i.readsMem = false) :
    (i.writesMem = false → Claims.Carries i s t fun u => { u with mem := m }) ∧
    (i.writesMem = true → ∃ m', exec i { s with mem := m } = .next { t with mem := m' }) := by
  have hfault : faultOf i { s with mem := m } = faultOf i s := rfl
  refine ⟨fun hw => carries_of h hfault (fun _ => rfl) fun _ => complete_withMem s m hr hw, fun hw => ?_⟩
  obtain ⟨hf, rfl⟩ | ⟨r, hf, rfl⟩ := next_cases h
  · exact ⟨_, (exec_of_faultOf_none (hfault.trans hf)).trans (congrArg _ (complete_store_withMem s m hw))⟩
  · exact ⟨m, exec_of_faultOf_some (hfault.trans hf)⟩

/-- The latch is carried over by an instruction that takes no fault, and overwritten by one that takes one. -/
theorem unreadFault {i : Instr} {s t : State} (f : Option FaultRecord) (h : exec i s = .next t) (hs : s.fault = none) :
    (t.fault = none → Claims.Carries i s t fun u => { u with fault := f }) ∧
    (t.fault ≠ none → Claims.Overwrites i s t fun u => { u with fault := f }) := by
  have hfault : faultOf i { s with fault := f } = faultOf i s := rfl
  rw [fault_eq_faultOf h hs]
  obtain ⟨hf, rfl⟩ | ⟨r, hf, rfl⟩ := next_cases h
  · exact ⟨fun _ => (exec_of_faultOf_none (hfault.trans hf)).trans (congrArg _ (complete_withFault s f)),
      fun hn => absurd hf hn⟩
  · exact ⟨fun hn => (nomatch hf.symm.trans hn), fun _ => exec_of_faultOf_some (hfault.trans hf)⟩

/-- `I` is carried over, or overwritten where an instruction writes it without reading it. -/
theorem unreadIndex {i : Instr} {s t : State} (i' : Word) (h : exec i s = .next t) (hr : i.readsI = false) :
    (i.writesI = false → Claims.Carries i s t fun u => { u with i := i' }) ∧
    (i.writesI = true → Claims.Overwrites i s t fun u => { u with i := i' }) := by
  constructor
  · intro hw
    have hfault : faultOf i { s with i := i' } = faultOf i s :=
      faultOf_congr (fun _ _ => rfl) (by simp [hr]) (fun _ => rfl) fun _ => rfl
    exact carries_of h hfault (fun _ => rfl) fun _ => complete_withI s i' hr hw
  · intro hw
    cases i with
    | ldI | ldF => exact h
    | addI => cases hr
    | _ => cases hw

/-- `pc` is carried over but by the ten instructions that write it, of which the two jumps overwrite it. -/
theorem unreadPc {i : Instr} {s t : State} (pc' : Word) (h : exec i s = .next t) :
    (i.writesPc = false → Claims.Carries i s t fun u => { u with pc := pc' }) ∧
    ((∃ nnn, i = .jp nnn ∨ i = .jpV0 nnn) → Claims.Overwrites i s t fun u => { u with pc := pc' }) := by
  constructor
  · intro hw
    have hfault : faultOf i { s with pc := pc' } = faultOf i s :=
      faultOf_congr (fun _ _ => rfl) (fun _ => rfl) (by simp [hw]) fun _ => rfl
    exact carries_of h hfault (fun _ => rfl) fun _ => complete_withPc s pc' hw
  · rintro ⟨nnn, rfl | rfl⟩
    · exact h
    · exact h

/-- The stack is carried over but by the two instructions that use it. -/
theorem unreadStack {i : Instr} {s t : State} (k : List Word) (h : exec i s = .next t) (hk : i.usesStack = false) :
    Claims.Carries i s t fun u => { u with stack := k } :=
  carries_of h (faultOf_congr (fun _ _ => rfl) (fun _ => rfl) (fun _ => rfl) (by simp [hk])) (fun _ => rfl)
    fun _ => complete_withStack s k hk

/-- Settles O39, element by element: the fault of an instruction does not see a change of what it does not read, and its
effect carries the change over or overwrites it. -/
theorem unreadStateHasNoInfluence : Obligations.UnreadStateHasNoInfluence := by
  intro i s t h
  refine ⟨fun r w hr => unreadRegister w h hr, fun i' hr => unreadIndex i' h hr, fun pc' => unreadPc pc' h,
    fun m hr => unreadMemory m h hr, fun k hk => unreadStack k h hk, fun fb' => ⟨fun hw => ?_, ?_⟩,
    fun b => ⟨fun hi => ?_, ?_⟩, fun b => ⟨fun hi => ?_, ?_⟩, fun kw' => ⟨fun hi => ?_, ?_⟩,
    fun f hs => unreadFault f h hs, fun ks hk => ?_, fun p hi => ?_, fun es => ?_, fun c => exec_withCycle i s t c h,
    fun n => ?_, fun c hr hw => ?_⟩
  · exact carries_of h rfl (fun _ => rfl) fun _ => complete_withFb s fb' hw
  · rintro ⟨ign, rfl⟩
    exact h
  · exact carries_of h rfl (fun _ => rfl) fun _ => complete_withDt s b hi
  · rintro ⟨x, rfl⟩
    exact h
  · exact carries_of h rfl (fun _ => rfl) fun _ => complete_withSt s b hi
  · rintro ⟨x, rfl⟩
    exact h
  · exact carries_of h rfl (fun _ => rfl) fun _ => complete_withKw s kw' hi
  · rintro ⟨x, rfl⟩
    exact h
  · exact carries_of h rfl (fun _ => rfl) fun _ => complete_withKeys s ks hk
  · exact carries_of h rfl (fun _ => rfl) fun _ => complete_withPorts s p hi
  · exact carries_of h rfl (fun _ => rfl) fun _ => complete_withEvents s es
  · exact carries_of h rfl (fun _ => rfl) fun _ => complete_withCyclesPerTick s n
  · exact carries_of h rfl (fun _ => rfl) fun _ => complete_withConfig s (.inr ⟨hr, hw⟩)

end Sys2Proof.Machine
end

section
/-! What the machine reads from memory: memories in canonical form are their bytes, a fetch sees what a store or a load
put at `pc`, and a fetch outside memory is a fault (spec/20_memory.md R40, R44, R49, R54, R55). -/

namespace Sys2Proof.Machine

/-! ## Canonical memories (R40) -/

variable {c : Config}

/-- The canonical form of a memory with a lowest entry. -/
theorem Memory.wfFrom_cons {lo b : Nat} {w : Byte} {rest : Memory} :
    Memory.wfFrom c lo ((b, w) :: rest) = true ↔
      lo ≤ b ∧ b < 4096 ∧ w ≠ Memory.resetByte c b ∧ Memory.wfFrom c (b + 1) rest = true := by
  simp [Memory.wfFrom, and_assoc]

@[simp] theorem Memory.read_head (b : Nat) (w : Byte) (rest : Memory) : Memory.read c ((b, w) :: rest) b = w := by
  simp [Memory.read]

theorem Memory.read_above_head {a b : Nat} (w : Byte) (rest : Memory) (h : b < a) :
    Memory.read c ((b, w) :: rest) a = Memory.read c rest a := by
  have hne : a ≠ b := by omega
  have hlt : ¬a < b := by omega
  simp [Memory.read, hne, hlt]

/-- A memory that reads at the lowest entry of another as the other does has an entry there or below. -/
theorem Memory.not_wfFrom_above_head {lo b : Nat} {w : Byte} {rest m : Memory}
    (h : Memory.wfFrom c lo ((b, w) :: rest) = true)
    (hr : Memory.read c m b = Memory.read c ((b, w) :: rest) b) : ¬Memory.wfFrom c (b + 1) m = true := by
  intro hm
  obtain ⟨-, -, hw, -⟩ := Memory.wfFrom_cons.mp h
  rw [Memory.read_below hm b.lt_succ_self, Memory.read_head] at hr
  exact hw hr.symm

/-- Memories in canonical form whose bytes agree are the same: their lowest entries agree, and so do their rests. -/
theorem Memory.ext_read {lo lo' : Nat} {m m' : Memory} (h : Memory.wfFrom c lo m = true)
    (h' : Memory.wfFrom c lo' m' = true) (hr : ∀ a, a < 4096 → Memory.read c m a = Memory.read c m' a) : m = m' := by
  induction m generalizing lo lo' m' with
  | nil =>
    cases m' with
    | nil => rfl
    | cons e' rest' =>
      obtain ⟨-, hb', -, -⟩ := Memory.wfFrom_cons.mp h'
      exact absurd rfl (Memory.not_wfFrom_above_head h' (hr _ hb'))
  | cons e rest ih =>
    obtain ⟨b, w⟩ := e
    obtain ⟨hlo, hb, hw, hrest⟩ := Memory.wfFrom_cons.mp h
    have hhead := Memory.not_wfFrom_above_head h (hr b hb).symm
    cases m' with
    | nil => exact absurd rfl hhead
    | cons e' rest' =>
      obtain ⟨b', w'⟩ := e'
      obtain ⟨hlo', hb', hw', hrest'⟩ := Memory.wfFrom_cons.mp h'
      have hhead' := Memory.not_wfFrom_above_head h' (hr b' hb')
      obtain hlt | rfl | hgt := Nat.lt_trichotomy b b'
      · exact absurd (Memory.wfFrom_cons.mpr ⟨hlt, hb', hw', hrest'⟩) hhead
      · have hww : w = w' := by simpa using hr b hb
        have htail : rest = rest' := ih hrest hrest' fun a ha => by
          by_cases hab : b < a
          · simpa [Memory.read_above_head _ _ hab] using hr a ha
          · rw [Memory.read_below hrest (by omega), Memory.read_below hrest' (by omega)]
        rw [hww, htail]
      · exact absurd (Memory.wfFrom_cons.mpr ⟨hgt, hb, hw, hrest⟩) hhead'

/-- Settles O10, by the memories' lowest entries. -/
theorem memoryIsItsBytes : Obligations.MemoryIsItsBytes :=
  fun _ _ _ h h' hr => Memory.ext_read h h' hr

/-! ## The fetch (R44, R49) -/

/-- Settles O41. -/
theorem fetchIsBigEndian : Obligations.FetchIsBigEndian :=
  fun _ hpc => ⟨_, State.fetch_of_le hpc, toNat_opcodeOfBytes _ _⟩

/-- A fetch reads `pc`, memory and the parameters alone, and the start of a cycle leaves these. -/
@[simp] theorem State.startCycle_fetch (s : State) : s.startCycle.fetch = s.fetch := by
  simp [State.fetch, State.readByte]

/-- A cycle whose fetch is outside memory takes the fetch fault, whether the core waits for a key or not. -/
theorem State.runCycle_of_pc_gt {s : State} (h : 0xFFE < s.pc.toNat) :
    s.runCycle = .next { s with fault := some ⟨.outOfBoundsMemoryAccess, s.fetchFaultAddress, none⟩ } := by
  have hnone := State.fetch_eq_none.mpr h
  obtain ⟨-, hr⟩ | ⟨op, hf, -⟩ | ⟨op, u, hf, -⟩ := State.runCycle_cases s
  · exact hr
  · cases hnone.symm.trans hf
  · cases hnone.symm.trans hf

/-- Settles O46. -/
theorem fetchOutsideMemoryFaults : Obligations.FetchOutsideMemoryFaults := by
  intro s hf hc hpc
  refine ⟨s.startCycle.fetchFaultAddress, ?_, ?_⟩
  · rw [State.fetchFaultAddress_toNat, State.startCycle_pc]
  · rw [step_of_cycle hf hc]
    exact State.runCycle_of_pc_gt (by simpa using hpc)

/-! ## A store, then a fetch (R54, R55) -/

/-- A fetch after a run of stores inside memory sees each of its two bytes as the stored or the old one. -/
theorem fetchSeesStore_storeBytes {s : State} {ws : List Byte} (hw : Memory.wf s.config s.mem = true)
    (hl : s.i.toNat + ws.length ≤ 4096) (hpc : s.pc.toNat ≤ 0xFFE) :
    Claims.FetchSeesStore s (s.storeBytes s.i.toNat ws) ws := by
  refine ⟨_, State.fetch_of_le hpc, ?_⟩
  rw [toNat_opcodeOfBytes, State.readByte_storeBytes s ws _ hw hl, State.readByte_storeBytes s ws _ hw hl]
  rfl

/-- Settles O28: each store that completes is a run of stores from I upward. -/
theorem storeSeenByNextFetch : Obligations.StoreSeenByNextFetch := by
  intro x s hw hpc
  refine ⟨fun hi => ?_, fun hi => ?_⟩
  · obtain ⟨-, h⟩ | ⟨hout, -⟩ := execStoreRegs_cases x s
    · exact ⟨_, h, fetchSeesStore_storeBytes hw (by rw [State.length_regsUpTo]; omega) hpc⟩
    · omega
  · obtain ⟨-, h⟩ | ⟨hout, -⟩ := execLdB_cases x s
    · exact ⟨_, h, fetchSeesStore_storeBytes hw (by simp only [bcdDigits, List.length_cons, List.length_nil]; omega) hpc⟩
    · omega

/-! ## A placed word (R44, R81, R86) -/

/-- The state in which a fetched word executes is the one the cycle has advanced `pc` of. -/
theorem State.advance_startCycle (s : State) : s.startCycle.advance = Claims.atExecute s := by
  simp [State.startCycle, State.advance, Claims.atExecute]

/-- A step whose cycle is due, in a core neither faulted nor waiting, runs the instruction the fetched word decodes to. -/
theorem step_of_fetch {s : State} {op : Word} {i : Instr} (hf : s.fault = none)
    (hc : s.cycle < s.config.cyclesPerTick) (hk : s.kw = .running) (hop : s.fetch = some op)
    (hi : decodeWord op = some i) : step s = exec i (Claims.atExecute s) := by
  have hgate : (Claims.atExecute s).keyGate = some (Claims.atExecute s) := by
    simp [State.keyGate, Claims.atExecute, hk]
  simp [step_of_cycle hf hc, State.runCycle, hop, State.advance_startCycle, hgate, executeWord, hi]

/-- A word of the opcode table is decoded from its own bytes. -/
theorem decodeTableWord_eq (nbits w : Nat) : decodeTableWord nbits w = decodeWord (tableWord nbits w) := by
  have happ := List.append_nil (bytesOfOpcode (tableWord nbits w))
  unfold decodeTableWord
  cases h : decodeWord (tableWord nbits w) with
  | some i => rw [← happ, decode_bytes_of_some h]
  | none => rw [← happ, decode_bytes_of_none h]

/-- A table word of 16 bits is the word of its number. -/
theorem tableWord_sixteen (w : Nat) : tableWord 16 w = BitVec.ofNat 16 w := by
  simp [tableWord, ← BitVec.toNat_inj]

section Placed

variable (s : State) (nbits w : Nat)

/-- The placed word stands inside memory. -/
theorem State.withFetchWord_pc_le : (s.withFetchWord nbits w).pc.toNat ≤ 0xFFE := by
  by_cases h : s.pc.toNat ≤ 0xFFE
  · simp [State.withFetchWord, h]
  · simp [State.withFetchWord, h]

theorem State.withFetchWord_cycle_lt :
    (s.withFetchWord nbits w).cycle < (s.withFetchWord nbits w).config.cyclesPerTick := by
  by_cases h0 : s.config.cyclesPerTick = 0
  · simp [State.withFetchWord, h0]
  · by_cases hc : s.cycle < s.config.cyclesPerTick
    · simp [State.withFetchWord, h0, hc]
    · simp [State.withFetchWord, h0, hc, Nat.pos_of_ne_zero h0]

/-- Placing a word keeps the font. -/
theorem State.withFetchWord_fontTail : (s.withFetchWord nbits w).config.fontTail = s.config.fontTail := by
  by_cases h0 : s.config.cyclesPerTick = 0
  · simp [State.withFetchWord, h0]
  · simp [State.withFetchWord, h0]

/-- Memory with a word placed reads as memory with its bytes stored at `pc`. -/
theorem State.withFetchWord_readByte (a : Nat) :
    (s.withFetchWord nbits w).readByte a =
      (s.storeBytes (s.withFetchWord nbits w).pc.toNat (bytesOfOpcode (tableWord nbits w))).readByte a :=
  Memory.read_font (s.withFetchWord_fontTail nbits w) _ a

/-- The next fetch reads the placed word. -/
theorem State.withFetchWord_fetch (hw : Memory.wf s.config s.mem = true) :
    (s.withFetchWord nbits w).fetch = some (tableWord nbits w) := by
  have hpc := s.withFetchWord_pc_le nbits w
  have hl : (s.withFetchWord nbits w).pc.toNat + (bytesOfOpcode (tableWord nbits w)).length ≤ 4096 := by
    rw [length_bytesOfOpcode]; omega
  have hbyte (a : Nat) := (s.withFetchWord_readByte nbits w a).trans (State.readByte_storeBytes s _ a hw hl)
  simp [State.fetch_of_le hpc, hbyte, bytesOfOpcode]

/-- Placing a word changes its two bytes alone. -/
theorem State.withFetchWord_readByte_ne {a : Nat} (hw : Memory.wf s.config s.mem = true)
    (h0 : a ≠ (s.withFetchWord nbits w).pc.toNat) (h1 : a ≠ (s.withFetchWord nbits w).pc.toNat + 1) :
    (s.withFetchWord nbits w).readByte a = s.readByte a := by
  have hpc := s.withFetchWord_pc_le nbits w
  rw [State.withFetchWord_readByte]
  exact Memory.read_writeBytes_outside _ hw (by rw [length_bytesOfOpcode]; omega) (by rw [length_bytesOfOpcode]; omega)

end Placed

/-- Settles O54: the placed word is fetched, its cycle is due, and it decodes to the instruction. -/
theorem placedWordRunsNext : Obligations.PlacedWordRunsNext := by
  intro s w i hw _ hi
  rw [← tableWord_sixteen] at hi
  exact ⟨(decodeTableWord_eq 16 w).trans hi,
    step_of_fetch rfl (s.withFetchWord_cycle_lt 16 w) rfl (s.withFetchWord_fetch 16 w hw) hi,
    fun hpc => if_pos hpc, fun _ h0 h1 => s.withFetchWord_readByte_ne 16 w hw h0 h1⟩

end Sys2Proof.Machine
end

section
/-! The decoder and the encoder agree: each undoes the other, the rows of the opcode table are the words that decode to
their instructions, and the unknown words are those of no row (spec/30_encoding.md R60 to R71). -/

namespace Sys2Proof

/-! ## Decode after encode (R61, R64) -/

/-- The word of a well-formed instruction decodes to the instruction. -/
theorem decodeWord_encode {i : Instr} (h : i.wellFormed = true) : decodeWord (encode i) = some i := by
  cases i with
  | cls ign => exact Laws.RoundTrip.cls ign h
  | ret ign => exact Laws.RoundTrip.ret ign h
  | jp nnn => exact Laws.RoundTrip.jp nnn h
  | call nnn => exact Laws.RoundTrip.call nnn h
  | seImm x nn => exact Laws.RoundTrip.seImm x nn h
  | sneImm x nn => exact Laws.RoundTrip.sneImm x nn h
  | seReg x y => exact Laws.RoundTrip.seReg x y h
  | ldImm x nn => exact Laws.RoundTrip.ldImm x nn h
  | addImm x nn => exact Laws.RoundTrip.addImm x nn h
  | ldReg x y => exact Laws.RoundTrip.ldReg x y h
  | orReg x y => exact Laws.RoundTrip.orReg x y h
  | andReg x y => exact Laws.RoundTrip.andReg x y h
  | xorReg x y => exact Laws.RoundTrip.xorReg x y h
  | addReg x y => exact Laws.RoundTrip.addReg x y h
  | subReg x y => exact Laws.RoundTrip.subReg x y h
  | shr x y => exact Laws.RoundTrip.shr x y h
  | subnReg x y => exact Laws.RoundTrip.subnReg x y h
  | shl x y => exact Laws.RoundTrip.shl x y h
  | sneReg x y => exact Laws.RoundTrip.sneReg x y h
  | ldI nnn => exact Laws.RoundTrip.ldI nnn h
  | jpV0 nnn => exact Laws.RoundTrip.jpV0 nnn h
  | rnd x nn => exact Laws.RoundTrip.rnd x nn h
  | drw x y n => exact Laws.RoundTrip.drw x y n h
  | skp x => exact Laws.RoundTrip.skp x h
  | sknp x => exact Laws.RoundTrip.sknp x h
  | ldVxDt x => exact Laws.RoundTrip.ldVxDt x h
  | ldVxK x => exact Laws.RoundTrip.ldVxK x h
  | ldDtVx x => exact Laws.RoundTrip.ldDtVx x h
  | ldStVx x => exact Laws.RoundTrip.ldStVx x h
  | addI x => exact Laws.RoundTrip.addI x h
  | ldF x => exact Laws.RoundTrip.ldF x h
  | ldB x => exact Laws.RoundTrip.ldB x h
  | storeRegs x => exact Laws.RoundTrip.storeRegs x h
  | loadRegs x => exact Laws.RoundTrip.loadRegs x h

/-- Settles O2, by the round trip of each instruction's word. -/
theorem decodeOfEncodedBytes : Obligations.DecodeOfEncodedBytes :=
  fun _ rest h => decode_bytes_of_some (decodeWord_encode h) rest

/-- Settles O1, by running the decoder on each word. -/
theorem specWordsDecodeAsWritten : Obligations.SpecWordsDecodeAsWritten := by
  unfold Obligations.SpecWordsDecodeAsWritten
  decide

/-! ## Encode after decode (R61, R62, R64) -/

section Fields

variable {op : Word} {g : Nibble} (hg : fieldG op = g)
include hg

/-- A word is its group and its address (format A). -/
theorem encodeA_of_fieldG : encodeA g (fieldNNN op) = op := by
  rw [← hg, encodeA_fields]

/-- A word is its group, its register and its low byte (format RI). -/
theorem encodeRI_of_fields {nn : Byte} (hn : fieldNN op = nn) : encodeRI g (fieldXNibble op) nn = op := by
  rw [← hg, ← hn, encodeRI_fields]

/-- A word is its group, its two registers and its low nibble (formats RR and RRN). -/
theorem encodeRR_of_fields {n : Nibble} (hn : fieldN op = n) : encodeRR g (fieldX op) (fieldY op) n = op := by
  rw [← hg, ← hn, encodeRR_fields]

end Fields

/-- A word of the ALU group is the encoding of what it decodes to. -/
theorem encode_of_decodeAlu {op : Word} {i : Instr} (hg : fieldG op = 0x8)
    (h : decodeAlu (fieldX op) (fieldY op) (fieldN op) = some i) : encode i = op := by
  unfold decodeAlu at h
  split at h <;> cases h
  all_goals exact encodeRR_of_fields hg ‹_›

/-- A word of group F is the encoding of what it decodes to. -/
theorem encode_of_decodeF {op : Word} {i : Instr} (hg : fieldG op = 0xF)
    (h : decodeF (fieldX op) (fieldNN op) = some i) : encode i = op := by
  unfold decodeF at h
  split at h <;> cases h
  all_goals exact encodeRI_of_fields hg ‹_›

/-- A word that decodes is the encoding of what it decodes to: each arm of the decoder fixes the fields that its
instruction does not carry. -/
theorem encode_of_decodeWord {op : Word} {i : Instr} (h : decodeWord op = some i) : encode i = op := by
  unfold decodeWord at h
  split at h
  -- Arm `k` is that of group `k - 1`. Groups 0 and E fix `NN` as well, groups 5 and 9 fix `N`.
  case h_1 hg | h_15 hg =>
    split at h <;> cases h
    all_goals exact encodeRI_of_fields hg ‹_›
  case h_6 hg | h_10 hg =>
    split at h <;> cases h
    exact encodeRR_of_fields hg ‹_›
  case h_9 hg => exact encode_of_decodeAlu hg h
  case h_16 hg => exact encode_of_decodeF hg h
  case h_2 hg | h_3 hg | h_11 hg | h_12 hg => cases h; exact encodeA_of_fieldG hg
  case h_4 hg | h_5 hg | h_7 hg | h_8 hg | h_13 hg => cases h; exact encodeRI_of_fields hg rfl
  case h_14 hg => cases h; exact encodeRR_of_fields hg (by simp)
  case h_17 => cases h

/-- The row count of a decoded draw is the field `N` (R63). -/
theorem drw_rows_of_decodeWord {op : Word} {x y : Reg} {n : Nat} (h : decodeWord op = some (.drw x y n)) :
    n = (fieldN op).toNat := by
  have hg : fieldG op = 0xD := by
    rw [← encode_of_decodeWord h]
    exact fieldG_encodeRR ..
  rw [decodeWord, hg] at h
  cases h; rfl

/-- A decoded instruction is well-formed: only the row count of a draw could be too large. -/
theorem wellFormed_of_decodeWord {op : Word} {i : Instr} (h : decodeWord op = some i) : i.wellFormed = true := by
  cases i with
  | drw x y n =>
    have hn := (fieldN op).isLt
    rw [← drw_rows_of_decodeWord h] at hn
    simpa [Instr.wellFormed] using Nat.le_of_lt_succ hn
  | _ => rfl

/-- Settles O3, arm by arm of the decoder. -/
theorem encodeOfDecodedWord : Obligations.EncodeOfDecodedWord :=
  fun _ _ h => ⟨encode_of_decodeWord h, wellFormed_of_decodeWord h⟩

/-! ## The rows of the opcode table (R66) -/

/-- Each row of the table is the row of an instruction. -/
theorem exists_row_of_mem_opcodeTable : ∀ r ∈ opcodeTable, ∃ i, Instr.row i = r := by
  simp only [opcodeTable, List.forall_mem_append, List.forall_mem_cons, List.not_mem_nil, false_imp_iff,
    implies_true, and_true]
  and_intros <;> exact ⟨_, rfl⟩

/-- A word that matches the row of an instruction decodes to an instruction of that row. The mask of the row says which
fields of the word are fixed: the group, and in some rows `NN` or `N`. -/
theorem decodeWord_map_row {op : Word} (i : Instr) (h : op &&& i.row.mask = i.row.value) :
    (decodeWord op).map Instr.row = some i.row := by
  cases i with
  | jp | call | seImm | sneImm | ldImm | addImm | ldI | jpV0 | rnd | drw =>
    simp only [Instr.row] at h
    have hg := (covers_F000 (by decide)).mp h
    rw [decodeWord, hg]; rfl
  | cls | ret | skp | sknp | ldVxDt | ldVxK | ldDtVx | ldStVx | addI | ldF | ldB | storeRegs | loadRegs =>
    simp only [Instr.row] at h
    obtain ⟨hg, hn⟩ := (covers_F0FF (by decide)).mp h
    rw [decodeWord, hg, hn]; rfl
  | seReg | ldReg | orReg | andReg | xorReg | addReg | subReg | shr | subnReg | shl | sneReg =>
    simp only [Instr.row] at h
    obtain ⟨hg, hn⟩ := (covers_F00F (by decide)).mp h
    rw [decodeWord, hg, hn]; rfl

/-- Settles O4: a word of a row decodes to an instruction of the row by its fields, and a word that decodes is an
encoding, which lies in its row. -/
theorem decodedWordMatchesItsRow : Obligations.DecodedWordMatchesItsRow := by
  refine ⟨rfl, fun op r hr => ⟨fun h => ?_, ?_⟩⟩
  · obtain ⟨i, rfl⟩ := exists_row_of_mem_opcodeTable r hr
    exact Option.map_eq_some_iff.mp (decodeWord_map_row i h)
  · rintro ⟨i, hi, rfl⟩
    rw [← encode_of_decodeWord hi]
    exact encode_row i

/-! ## The unknown words (R69, R70) -/

/-- The values of `N` that select no operation of the ALU group. -/
theorem decodeAlu_eq_none {x y : Reg} {n : Nibble} :
    decodeAlu x y n = none ↔ 8 ≤ n.toNat ∧ n.toNat ≠ 0xE := by
  unfold decodeAlu
  split
  case h_10 => revert n; decide
  all_goals simp

/-- The values of `NN` that select no instruction of group F. -/
theorem decodeF_eq_none {x : Reg} {nn : Byte} :
    decodeF x nn = none ↔ nn.toNat ∉ [0x07, 0x0A, 0x15, 0x18, 0x1E, 0x29, 0x33, 0x55, 0x65] := by
  unfold decodeF
  split
  case h_10 => simp_all [← BitVec.toNat_inj]
  all_goals simp

/-- `G` as a number: bits 15:12 (R61). -/
theorem fieldG_toNat (op : Word) : (fieldG op).toNat = op.toNat / 4096 := by
  have := op.isLt
  rw [fieldG, BitVec.extractLsb'_toNat, Nat.shiftRight_eq_div_pow]
  omega

/-- `NN` as a number: bits 7:0 (R61). -/
theorem fieldNN_toNat (op : Word) : (fieldNN op).toNat = op.toNat % 256 := by
  simp [fieldNN]

/-- `N` as a number: bits 3:0 (R61). -/
theorem fieldN_toNat (op : Word) : (fieldN op).toNat = op.toNat % 16 := by
  simp [fieldN]

/-- Settles O5, group by group. -/
theorem unknownWordsGroupByGroup : Obligations.UnknownWordsGroupByGroup := by
  intro op
  simp only [← fieldG_toNat, ← fieldNN_toNat, ← fieldN_toNat]
  unfold decodeWord
  split
  -- Arm `k` is that of group `k - 1`. Groups 0 and E select by `NN`, groups 5 and 9 by `N`.
  case h_1 hg | h_15 hg => split <;> simp_all [← BitVec.toNat_inj]
  case h_6 hg | h_10 hg => simp [hg, ← BitVec.toNat_inj]
  case h_9 hg => simp [hg, decodeAlu_eq_none]
  case h_16 hg => simp [hg, decodeF_eq_none]
  -- The groups all of whose words are known.
  case h_2 hg | h_3 hg | h_4 hg | h_5 hg | h_7 hg | h_8 hg | h_11 hg | h_12 hg | h_13 hg | h_14 hg => simp [hg]
  -- There is no seventeenth group.
  case h_17 =>
    exfalso
    generalize fieldG op = g at *
    revert g; decide

end Sys2Proof

namespace Sys2Proof.Machine

/-! ## The step of a fetched word (R69, R81, R86) -/

/-- A step whose cycle is due, in a core neither faulted nor waiting, executes the word it fetched, known or unknown. -/
theorem step_of_running {s : State} {op : Word} (hf : s.fault = none) (hc : s.cycle < s.config.cyclesPerTick)
    (hk : s.kw = .running) (hop : s.fetch = some op) : step s = executeWord op (Claims.atExecute s) := by
  have hgate : (Claims.atExecute s).keyGate = some (Claims.atExecute s) := by
    simp [State.keyGate, Claims.atExecute, hk]
  simp [step_of_cycle hf hc, State.runCycle, hop, State.advance_startCycle, hgate]

/-- While a word executes, the address it was fetched from is the `pc` before the step (R209). -/
theorem State.instrAddress_atExecute (s : State) : (Claims.atExecute s).instrAddress = s.pc := by
  simp [State.instrAddress, Claims.atExecute]

/-- Settles O43: an unknown word executes as its event alone. -/
theorem unknownWordIsNoOpWithEvent : Obligations.UnknownWordIsNoOpWithEvent := by
  intro s op hf hc hk hpc hd
  obtain ⟨hnone, hop⟩ := decode_two_bytes_unknown.mp hd
  have hfetch : s.fetch = some op := by rw [State.fetch_of_le hpc, hop]
  rw [step_of_running hf hc hk hfetch, executeWord, hnone, State.instrAddress_atExecute]
  rfl

end Sys2Proof.Machine
end

section
/-! The cycle, the key-wait gate, the timer step and the tick that is made of them (spec/40_cycle_and_tick.md R80 to
R89, R98; spec/60_exceptions.md R204, R210). -/

namespace Sys2Proof.Machine

/-! ## The key-wait gate (R83 to R85) -/

/-- The gate passes a running core as it is. -/
theorem State.keyGate_of_running {s : State} (hk : s.kw = .running) : s.keyGate = some s := by
  simp [State.keyGate, hk]

/-- The gate stalls a waiting core with no key pressed (R84). -/
theorem State.keyGate_of_noKey {s : State} {r : Reg} (hk : s.kw = .waiting r) (hkeys : s.keys = 0) :
    s.keyGate = none := by
  simp [State.keyGate, hk, State.firstKey_eq_none.mpr hkeys]

/-- The gate delivers the lowest pressed key to a waiting core and releases it (R83, R85). -/
theorem State.keyGate_of_key {s : State} {r k : Reg} (hk : s.kw = .waiting r) (hp : s.keys.getLsbD k.val = true)
    (hl : ∀ j : Reg, j < k → s.keys.getLsbD j.val = false) :
    s.keyGate = some { s.setReg r (BitVec.ofNat 8 k.val) with kw := .running } := by
  simp [State.keyGate, hk, State.firstKey_eq_some hp hl]

/-- The gate leaves the parameters. -/
theorem State.keyGate_config {s u : State} (h : s.keyGate = some u) : u.config = s.config := by
  obtain ⟨-, hg⟩ | ⟨r, -, -, hg⟩ | ⟨r, k, -, -, hg⟩ := State.keyGate_cases s <;> cases hg.symm.trans h <;> rfl

/-! ## One cycle (R81, R82, R98) -/

/-- A cycle that the gate lets pass executes the fetched word on the gate's state. -/
theorem State.runCycle_of_gate {s u : State} {op : Word} (hop : s.fetch = some op) (hg : s.advance.keyGate = some u) :
    s.runCycle = executeWord op u := by
  simp [State.runCycle, hop, hg]

/-- A waiting core with no key pressed stalls: its cycle changes nothing (R84). -/
theorem State.runCycle_of_stall {s : State} {r : Reg} (hk : s.kw = .waiting r) (hkeys : s.keys = 0)
    (hpc : s.pc.toNat ≤ 0xFFE) : s.runCycle = .next s := by
  have hgate : s.advance.keyGate = none := State.keyGate_of_noKey hk hkeys
  simp [State.runCycle, State.fetch_of_le hpc, hgate]

/-- A known word executes as its instruction (R86). -/
theorem executeWord_of_some {op : Word} {i : Instr} (h : decodeWord op = some i) (s : State) :
    executeWord op s = exec i s := by
  simp [executeWord, h]

/-- An unknown word executes as the no-op with its event (R69, R209). -/
theorem executeWord_of_none {op : Word} (h : decodeWord op = none) (s : State) :
    executeWord op s = .next (s.emit (.unknownOpcode op s.instrAddress)) := by
  simp [executeWord, h]

/-- Executing a word leaves the parameters. -/
theorem executeWord_config {op : Word} {s t : State} (h : executeWord op s = .next t) : t.config = s.config := by
  obtain ⟨i, -, he⟩ | ⟨-, he⟩ := executeWord_cases op s
  · exact exec_config (he.symm.trans h)
  · cases he.symm.trans h; rfl

/-- A cycle leaves the parameters. -/
theorem State.runCycle_config {s t : State} (h : s.runCycle = .next t) : t.config = s.config := by
  obtain ⟨-, hr⟩ | ⟨op, -, -, hr⟩ | ⟨op, u, -, hg, hr⟩ := State.runCycle_cases s
  · cases hr.symm.trans h; rfl
  · cases hr.symm.trans h; rfl
  · exact (executeWord_config (hr.symm.trans h)).trans ((State.keyGate_config hg).trans (State.advance_config s))

/-- Settles O53: the jump writes back the `pc` the cycle has advanced. -/
theorem selfJumpIsFixedPoint : Obligations.SelfJumpIsFixedPoint := by
  intro s nnn hk hpc hop
  have hgate : s.advance.keyGate = some s.advance := State.keyGate_of_running hk
  have htarget : immAddress nnn = s.pc := BitVec.eq_of_toNat_eq (by rw [toNat_immAddress, hpc])
  calc s.runCycle = exec (.jp nnn) s.advance := by
        rw [State.runCycle_of_gate hop hgate, executeWord_of_some (decodeWord_encode rfl)]
    _ = .next { s.advance with pc := immAddress nnn } := rfl
    _ = .next s := by rw [htarget]; rfl

/-! ## The step that is a cycle (R81, R83 to R86) -/

/-- Settles O42. -/
theorem stepRunsDecodedInstruction : Obligations.StepRunsDecodedInstruction :=
  fun _ _ hf hc hk hpc hd => step_of_fetch hf hc hk (State.fetch_of_le hpc) (decode_two_bytes.mp hd)

/-- Settles O44: the stalled cycle changes nothing of the state its step starts it in. -/
theorem stallLeavesStateUnchanged : Obligations.StallLeavesStateUnchanged := by
  intro s r hf hc hk hpc hkeys
  rw [step_of_cycle hf hc]
  exact State.runCycle_of_stall (r := r) (by simpa using hk) hkeys (by simpa using hpc)

/-- A step whose cycle is due executes the fetched word on the state the gate lets pass. -/
theorem step_of_gate {s u : State} {op : Word} (hf : s.fault = none) (hc : s.cycle < s.config.cyclesPerTick)
    (hop : s.fetch = some op) (hg : (Claims.atExecute s).keyGate = some u) : step s = executeWord op u := by
  rw [← State.advance_startCycle] at hg
  rw [step_of_cycle hf hc, State.runCycle_of_gate ((State.startCycle_fetch s).trans hop) hg]

/-- Settles O45: the word executes on the state in which the gate has delivered the key. -/
theorem releaseDeliversLowestKeyAndExecutes : Obligations.ReleaseDeliversLowestKeyAndExecutes := by
  intro s r k op hf hc hk hop hp hl
  have hkw : (Claims.atExecute s).kw = .waiting r := (State.beginTick_kw s).trans hk
  have hstep := step_of_gate hf hc hop (State.keyGate_of_key hkw hp hl)
  refine ⟨{ (Claims.atExecute s).setReg r (BitVec.ofNat 8 k.val) with kw := .running }, rfl,
    State.reg_setReg_same (Claims.atExecute s) r _, fun q hq => ?_, fun i hi => ?_, fun hnone => ?_⟩
  · exact (State.reg_setReg_ne (Claims.atExecute s) _ hq).trans (State.reg_congr (State.beginTick_v s) q)
  · rw [hstep, executeWord_of_some hi]
  · rw [hstep, executeWord_of_none hnone, ← State.instrAddress_atExecute s]
    rfl

/-! ## The timer step (R88, R210) -/

/-- A timer's byte after a timer step, as a number. -/
theorem toNat_countDown (b : Byte) : (if b = 0 then b else b - 1).toNat = b.toNat - 1 := by
  split
  · next h => simp [h]
  · next h => bv_omega

/-- Settles O47. -/
theorem timerStepEndsTick : Obligations.TimerStepEndsTick := by
  intro s hf hc
  refine ⟨s.endTick, step_of_end hf hc, ?_, ?_, fun h1 => ?_, fun h1 => ?_, rfl⟩
  · rw [State.endTick_dt, toNat_countDown]
  · rw [State.endTick_st, toNat_countDown]
  · rw [State.endTick_events, if_pos h1]
  · rw [State.endTick_events, if_neg h1]

/-- A timer step adds one beep when the sound timer stands at 1, and none otherwise. -/
theorem State.timerStep_count_beep (s : State) :
    s.timerStep.events.count .beep = s.events.count .beep + (if s.st.toNat = 1 then 1 else 0) := by
  rw [State.timerStep_events]
  by_cases h : s.st = 1
  · simp [h]
  · have hne : s.st.toNat ≠ 1 := fun h1 => h (BitVec.eq_of_toNat_eq h1)
    rw [if_neg h, if_neg hne, Nat.add_zero]

/-- Settles O48, by induction on the steps: the last one beeps when the steps before it have left the sound timer at
1. -/
theorem timersCountDownAndBeepOnce : Obligations.TimersCountDownAndBeepOnce := by
  intro k s
  induction k with
  | zero =>
    have hno : ¬(0 < s.st.toNat ∧ s.st.toNat ≤ 0) := by omega
    exact ⟨rfl, rfl, by rw [if_neg hno]; rfl⟩
  | succ k ih =>
    obtain ⟨hdt, hst, hbeep⟩ := ih
    simp only [Function.iterate_succ_apply']
    refine ⟨?_, ?_, ?_⟩
    · rw [State.timerStep_dt, toNat_countDown]; omega
    · rw [State.timerStep_st, toNat_countDown]; omega
    · rw [State.timerStep_count_beep, hbeep, hst]
      split_ifs <;> omega

/-! ## The tick (R87, R89) -/

/-- Everything a nonempty run of cycles can do: its first cycle faults and ends it, or the others follow. -/
theorem State.runCycles_succ_cases {n : Nat} {s t : State} (h : State.runCycles (n + 1) s = .next t) :
    ∃ u, s.runCycle = .next u ∧
      ((u.fault = none ∧ State.runCycles n u = .next t) ∨ (u.fault ≠ none ∧ u = t)) := by
  obtain ⟨u, hu⟩ := State.runCycle_next s
  rw [State.runCycles, hu] at h
  refine ⟨u, hu, ?_⟩
  by_cases hf : u.fault = none
  · exact .inl ⟨hf, by simpa [hf] using h⟩
  · exact .inr ⟨hf, by simpa [hf] using h⟩

/-- A run of cycles does not look at the position of the tick. -/
theorem State.runCycles_withCycle {n : Nat} {s t : State} (c : Nat) (h : State.runCycles n s = .next t) :
    State.runCycles n { s with cycle := c } = .next { t with cycle := c } := by
  induction n generalizing s with
  | zero => cases h; rfl
  | succ n ih =>
    obtain ⟨u, hu, ⟨hf, hr⟩ | ⟨hf, rfl⟩⟩ := State.runCycles_succ_cases h
    · rw [State.runCycles, State.runCycle_withCycle s u c hu]
      exact (if_pos hf).trans (ih hr)
    · rw [State.runCycles, State.runCycle_withCycle s u c hu]
      exact if_neg hf

/-- A run of cycles leaves the position of the tick. -/
theorem State.runCycles_cycle {n : Nat} {s t : State} (h : State.runCycles n s = .next t) : t.cycle = s.cycle := by
  have h' : State.runCycles n s = .next { t with cycle := s.cycle } := State.runCycles_withCycle s.cycle h
  have ht : t = { t with cycle := s.cycle } := Host.Outcome.next.inj (h.symm.trans h')
  rw [ht]

/-- A tick whose cycles take no fault ends in the timer step (R87). -/
theorem State.tick_of_runCycles_ok {s t : State} {keys : KeyState} (hf : s.fault = none)
    (h : State.runCycles s.config.cyclesPerTick { s with keys := keys, events := [] } = .next t) (ht : t.fault = none) :
    s.tick keys = .next { state := t.timerStep, events := t.timerStep.events, ok := true } := by
  rw [State.tick_of_unfaulted keys hf, h]
  exact if_pos ht

/-- A tick one of whose cycles takes a fault ends there, with no timer step (R204). -/
theorem State.tick_of_runCycles_fault {s t : State} {keys : KeyState} (hf : s.fault = none)
    (h : State.runCycles s.config.cyclesPerTick { s with keys := keys, events := [] } = .next t)
    (ht : t.fault ≠ none) :
    s.tick keys = .next { state := t, events := t.events, ok := false } := by
  rw [State.tick_of_unfaulted keys hf, h]
  exact if_neg ht

/-- A waiting core with no key pressed stalls through a run of cycles (R84). -/
theorem State.runCycles_of_stall {s : State} {r : Reg} (hf : s.fault = none) (hk : s.kw = .waiting r)
    (hkeys : s.keys = 0) (hpc : s.pc.toNat ≤ 0xFFE) (n : Nat) : State.runCycles n s = .next s := by
  induction n with
  | zero => rfl
  | succ n ih =>
    rw [State.runCycles, State.runCycle_of_stall hk hkeys hpc]
    exact (if_pos hf).trans ih

/-- Settles O52: every cycle of the tick is a stall. -/
theorem waitingTickOnlyCountsTimers : Obligations.WaitingTickOnlyCountsTimers :=
  fun s r hf hk hpc => State.tick_of_runCycles_ok hf
    (State.runCycles_of_stall (s := { s with keys := 0, events := [] }) (r := r) hf hk rfl hpc _) hf

/-! ## The steps of a tick (R87, R204) -/

/-- A step whose cycle is due is that cycle, of the begun tick, and counts it. -/
theorem step_of_runCycle {s u : State} (hf : s.fault = none) (hc : s.cycle < s.config.cyclesPerTick)
    (h : s.beginTick.runCycle = .next u) : step s = .next { u with cycle := s.cycle + 1 } :=
  (step_of_cycle hf hc).trans (State.runCycle_withCycle _ u _ h)

/-- The cycles that remain of a tick, as steps: with no fault they and the timer step end the tick; a fault is reached
after the steps up to the cycle that takes it. -/
theorem run_of_runCycles {n : Nat} {s t : State} (hf : s.fault = none) (hc : s.cycle + n = s.config.cyclesPerTick)
    (h : State.runCycles n s.beginTick = .next t) :
    (t.fault = none → run (n + 1) s = .next { t.timerStep with cycle := 0 }) ∧
    (t.fault ≠ none → ∃ k, 0 < k ∧ k ≤ n ∧ run k s = .next { t with cycle := s.cycle + k }) := by
  induction n generalizing s t with
  | zero =>
    cases h
    have hbf : s.beginTick.fault = none := (State.beginTick_fault s).trans hf
    exact ⟨fun _ => run_succ_next (step_of_end hf (by omega)), fun ht => absurd hbf ht⟩
  | succ n ih =>
    obtain ⟨u, hu, hrest⟩ := State.runCycles_succ_cases h
    have hstep := step_of_runCycle hf (by omega) hu
    have hcfg : u.config = s.config := (State.runCycle_config hu).trans (State.beginTick_config s)
    obtain ⟨huf, hr⟩ | ⟨huf, rfl⟩ := hrest
    · have hbegun : ({ u with cycle := s.cycle + 1 } : State).beginTick = { u with cycle := s.cycle + 1 } :=
        State.beginTick_of_pos _ (Nat.succ_ne_zero _)
      obtain ⟨hok, hfail⟩ := ih (s := { u with cycle := s.cycle + 1 }) (t := { t with cycle := s.cycle + 1 }) huf
        (by simp only [hcfg]; omega) (hbegun ▸ State.runCycles_withCycle _ hr)
      refine ⟨fun ht => (run_succ_next hstep).trans (hok ht), fun ht => ?_⟩
      obtain ⟨k, -, hk, hrun⟩ := hfail ht
      refine ⟨k + 1, Nat.succ_pos k, by omega, ?_⟩
      rw [run_succ_next hstep, hrun, Nat.add_right_comm, Nat.add_assoc]
    · exact ⟨fun ht => absurd ht huf, fun _ => ⟨1, Nat.one_pos, by omega, run_succ_next hstep⟩⟩

/-- A run that has reached a fault stops at the next step. -/
theorem run_of_reached_fault {k n : Nat} {s u : State} {f : FaultRecord} (h : run k s = .next u)
    (hf : u.fault = some f) (hk : k < n) : run n s = .fault (.coreFaulted f) := by
  induction k generalizing s n with
  | zero =>
    cases h
    obtain ⟨n, rfl⟩ := Nat.exists_eq_succ_of_ne_zero (Nat.ne_of_gt hk)
    exact run_succ_fault hf
  | succ k ih =>
    obtain ⟨n, rfl⟩ := Nat.exists_eq_succ_of_ne_zero (Nat.ne_zero_of_lt hk)
    cases hs : step s with
    | next t => exact (run_succ_next hs).trans (ih (run_succ_next hs ▸ h) (Nat.lt_of_succ_lt_succ hk))
    | fault r => cases (run_succ_stop hs).symm.trans h
    | refused r => cases (run_succ_refused hs).symm.trans h

/-- Settles O51: the tick is a run of cycles from the begun tick, and the steps do the same cycles. -/
theorem tickIsItsSteps : Obligations.TickIsItsSteps := by
  intro s hf hc
  obtain ⟨t, ht⟩ := State.runCycles_next s.config.cyclesPerTick s.beginTick
  obtain ⟨hok, hfail⟩ := run_of_runCycles hf (by omega) ht
  have htc : t.cycle = 0 := (State.runCycles_cycle ht).trans ((State.beginTick_cycle s).trans hc)
  rw [State.beginTick_of_zero s hc] at ht
  cases htf : t.fault with
  | none =>
    refine ⟨_, State.tick_of_runCycles_ok hf ht htf, rfl, fun _ => ⟨htf, ?_⟩, nofun⟩
    rw [hok htf, ← htc]
    rfl
  | some f =>
    have hne : t.fault ≠ none := by simp [htf]
    obtain ⟨k, hpos, hle, hrun⟩ := hfail hne
    rw [hc, Nat.zero_add] at hrun
    exact ⟨_, State.tick_of_runCycles_fault hf ht hne, rfl, nofun, fun _ =>
      ⟨f, k, _, htf, hpos, hle, hrun, rfl, run_of_reached_fault hrun htf (by omega)⟩⟩

end Sys2Proof.Machine
end

section
/-! Control flow: the return, the call, the jumps and the four conditional skips (spec/41_control_flow.md R100 to
R108). -/

namespace Sys2Proof.Machine

/-! ## The row of an instruction and the record of its fault (R66, R204) -/

/-- A well-formed instruction has the row the opcode table gives it. -/
theorem hasRow_of_wellFormed {i : Instr} (h : i.wellFormed = true) : Claims.HasRow i i.row.value i.row.mask :=
  ⟨encode_row i, decodeWord_encode h⟩

/-- The address the faults of control flow record is the one the instruction was fetched from (R81, R209). -/
theorem State.toNat_instrAddress (s : State) : s.instrAddress.toNat = Claims.fetchedFrom s := by
  simp [State.instrAddress, Claims.fetchedFrom, BitVec.toNat_sub, Nat.add_comm]

/-- An instruction that sets the latch to a record with its own address, and changes nothing else, takes that fault. -/
theorem takesFault_at_instrAddress {i : Instr} {s : State} {k : FaultKind}
    (h : exec i s = .next { s with fault := some ⟨k, s.instrAddress, some (encode i)⟩ }) :
    Claims.TakesFault i s k (Claims.fetchedFrom s) :=
  ⟨s.instrAddress, s.toNat_instrAddress, h⟩

/-! ## The return and the call (R101, R103, R201, R202) -/

/-- Settles O11, by the two ways of RET. -/
theorem returnPopsOrUnderflows : Obligations.ReturnPopsOrUnderflows := by
  intro ign s
  refine ⟨hasRow_of_wellFormed rfl, fun a rest hs => ?_, fun hsp => ?_⟩
  · obtain ⟨b, rest', hs', hret⟩ | ⟨hs', -⟩ := execRet_cases ign s <;> cases hs.symm.trans hs'
    exact hret
  · have hs : s.stack = [] := List.length_eq_zero_iff.mp hsp
    obtain ⟨b, rest', hs', -⟩ | ⟨-, hret⟩ := execRet_cases ign s
    · cases hs.symm.trans hs'
    · exact takesFault_at_instrAddress hret

/-- Settles O12, by the two ways of CALL. -/
theorem callPushesOrOverflows : Obligations.CallPushesOrOverflows := by
  intro nnn s
  refine ⟨hasRow_of_wellFormed rfl, fun hsp => ?_, fun hsp => ?_⟩
  · obtain ⟨-, hcall⟩ | ⟨hfull, -⟩ := execCall_cases nnn s
    · exact ⟨_, hcall, rfl, toNat_immAddress nnn, rfl⟩
    · omega
  · obtain ⟨hfits, -⟩ | ⟨-, hcall⟩ := execCall_cases nnn s
    · omega
    · exact takesFault_at_instrAddress hcall

/-! ## The jumps (R102, R108) -/

/-- Settles O13. -/
theorem jumpAssignsTarget : Obligations.JumpAssignsTarget :=
  fun nnn _ => ⟨hasRow_of_wellFormed rfl, _, rfl, rfl, toNat_immAddress nnn⟩

/-- Settles O14: the sum of a 12-bit address and a byte does not wrap. -/
theorem jumpWithOffsetAddsV0 : Obligations.JumpWithOffsetAddsV0 :=
  fun nnn s => ⟨hasRow_of_wellFormed rfl, _, rfl, rfl, toNat_offsetTarget nnn (s.reg 0)⟩

/-! ## The conditional skips (R104 to R107) -/

/-- An instruction that is `skipIf` with a truth value that says when its condition holds is a conditional skip. -/
theorem skipsWhen_of_skipIf {i : Instr} {c : State → Prop} (b : State → Bool)
    (hexec : ∀ s, exec i s = .next (s.skipIf (b s))) (hb : ∀ s, b s = true ↔ c s) : Claims.SkipsWhen i c := by
  intro s
  refine ⟨s.skipIf (b s), hexec s, rfl, fun hc => ?_, fun hc => ?_⟩
  · simp [(hb s).mpr hc, BitVec.toNat_add]
  · simp [mt (hb s).mp hc]

/-- Settles O15: each skip's truth value is the comparison it is named for. -/
theorem conditionalSkips : Obligations.ConditionalSkips := by
  intro x y nn
  refine ⟨⟨hasRow_of_wellFormed rfl, ?_⟩, ⟨hasRow_of_wellFormed rfl, ?_⟩, ⟨hasRow_of_wellFormed rfl, ?_⟩,
    ⟨hasRow_of_wellFormed rfl, ?_⟩⟩
  · exact skipsWhen_of_skipIf (fun s => s.reg x == nn) (fun _ => rfl) fun _ => beq_iff_eq
  · exact skipsWhen_of_skipIf (fun s => s.reg x != nn) (fun _ => rfl) fun _ => bne_iff_ne
  · exact skipsWhen_of_skipIf (fun s => s.reg x == s.reg y) (fun _ => rfl) fun _ => beq_iff_eq
  · exact skipsWhen_of_skipIf (fun s => s.reg x != s.reg y) (fun _ => rfl) fun _ => bne_iff_ne

end Sys2Proof.Machine
end

section
/-! Load immediate, arithmetic, logic, shift and random (spec/42_load_alu.md R120 to R133). -/

namespace Sys2Proof.Machine

/-! ## What the two shared writes do (R8, R13, R121) -/

section Writes

variable {i : Instr} {x : Reg}

/-- An instruction whose effect is one register write leaves all else. -/
theorem setsRegister_of_setReg {w : State → Nat} (f : State → Byte) (hexec : ∀ s, exec i s = .next (s.setReg x (f s)))
    (hf : ∀ s, (f s).toNat = w s) : Claims.SetsRegister i x w := fun s =>
  ⟨_, hexec s, rfl, by rw [State.reg_setReg_same, hf], fun _ => State.reg_setReg_ne s _⟩

/-- An instruction whose effect is one register write of a bitwise operation combines the bits of its operands. -/
theorem combinesBits_of_setReg {y : Reg} {g : Bool → Bool → Bool} (f : Byte → Byte → Byte)
    (hexec : ∀ s, exec i s = .next (s.setReg x (f (s.reg x) (s.reg y))))
    (hf : ∀ a b k, (f a b).getLsbD k = g (a.getLsbD k) (b.getLsbD k)) : Claims.CombinesBits i x y g := fun s =>
  ⟨_, hexec s, rfl, fun _ => State.reg_setReg_ne s _, fun k _ => by rw [State.reg_setReg_same, hf]⟩

/-- An instruction whose effect is a result and then a flag leaves all else; the flag is written last, so it is what VF
holds even when VF is the destination (D5). -/
theorem setsRegisterAndFlag_of_writeResult {w : State → Nat} {flag : State → Bool} (f : State → Byte) (b : State → Bool)
    (hexec : ∀ s, exec i s = .next (s.writeResult x (f s) (b s))) (hf : ∀ s, (f s).toNat = w s)
    (hb : ∀ s, b s = flag s) : Claims.SetsRegisterAndFlag i x w flag := fun s =>
  ⟨_, hexec s, rfl, fun hx => by rw [State.reg_writeResult_dest s _ _ hx, hf],
    by rw [State.reg_writeResult_flag, hb]; rfl, fun _ => State.reg_writeResult_ne s _ _⟩

end Writes

/-! ## Loads, additions and logic without a flag (R122 to R127) -/

/-- Settles O17: each of the three is one register write. -/
theorem immediateAndAssignResults : Obligations.ImmediateAndAssignResults := by
  intro x y nn
  refine ⟨⟨hasRow_of_wellFormed rfl, ?_⟩, ⟨hasRow_of_wellFormed rfl, ?_⟩, ⟨hasRow_of_wellFormed rfl, ?_⟩⟩
  · exact setsRegister_of_setReg (fun _ => nn) (fun _ => rfl) fun _ => rfl
  · exact setsRegister_of_setReg (fun s => s.reg x + nn) (fun _ => rfl) fun s => BitVec.toNat_add (s.reg x) nn
  · exact setsRegister_of_setReg (fun s => s.reg y) (fun _ => rfl) fun _ => rfl

/-- Settles O18: each of the three is one register write of the bitwise operation it is named for. -/
theorem logicCombinesBits : Obligations.LogicCombinesBits := by
  intro x y
  refine ⟨⟨hasRow_of_wellFormed rfl, ?_⟩, ⟨hasRow_of_wellFormed rfl, ?_⟩, ⟨hasRow_of_wellFormed rfl, ?_⟩⟩
  · exact combinesBits_of_setReg (· ||| ·) (fun _ => rfl) fun _ _ _ => BitVec.getLsbD_or
  · exact combinesBits_of_setReg (· &&& ·) (fun _ => rfl) fun _ _ _ => BitVec.getLsbD_and
  · exact combinesBits_of_setReg (· ^^^ ·) (fun _ => rfl) fun _ _ _ => BitVec.getLsbD_xor

/-! ## Arithmetic and shifts with a flag (R120, R121, R128 to R132) -/

theorem toNat_byte_sub (a b : Byte) : (a - b).toNat = (a.toNat + 256 - b.toNat) % 256 := by
  rw [BitVec.toNat_sub]
  have := b.isLt
  omega

/-- Settles O19: each of the three writes its result and then its flag, both computed from the old values. -/
theorem addSubtractResultsAndFlags : Obligations.AddSubtractResultsAndFlags := by
  intro x y
  refine ⟨⟨hasRow_of_wellFormed rfl, ?_⟩, ⟨hasRow_of_wellFormed rfl, ?_⟩, ⟨hasRow_of_wellFormed rfl, ?_⟩⟩
  · exact setsRegisterAndFlag_of_writeResult (fun s => s.reg x + s.reg y) (fun s => carry (s.reg x) (s.reg y))
      (fun _ => rfl) (fun s => BitVec.toNat_add (s.reg x) (s.reg y)) fun _ => rfl
  · exact setsRegisterAndFlag_of_writeResult (fun s => s.reg x - s.reg y) (fun s => notBorrow (s.reg x) (s.reg y))
      (fun _ => rfl) (fun s => toNat_byte_sub (s.reg x) (s.reg y)) fun _ => rfl
  · exact setsRegisterAndFlag_of_writeResult (fun s => s.reg y - s.reg x) (fun s => notBorrow (s.reg y) (s.reg x))
      (fun _ => rfl) (fun s => toNat_byte_sub (s.reg y) (s.reg x)) fun _ => rfl

theorem toNat_byte_shiftRight_one (a : Byte) : (a >>> 1).toNat = a.toNat / 2 := by
  rw [BitVec.toNat_ushiftRight, Nat.shiftRight_one]

theorem toNat_byte_shiftLeft_one (a : Byte) : (a <<< 1).toNat = a.toNat * 2 % 256 := by
  rw [BitVec.toNat_shiftLeft, Nat.shiftLeft_eq]

/-- The bit a right shift drops is the parity. -/
theorem bitOutRight_eq (a : Byte) : bitOutRight a = decide (a.toNat % 2 = 1) :=
  Nat.testBit_zero a.toNat

/-- The bit a left shift drops is the sign bit. -/
theorem bitOutLeft_eq (a : Byte) : bitOutLeft a = decide (a.toNat ≥ 128) :=
  BitVec.msb_eq_decide a

/-- Settles O20: both shifts write the shifted `V[x]` and then the bit shifted out, and neither reads `V[y]`. -/
theorem shiftResultsAndFlags : Obligations.ShiftResultsAndFlags := by
  intro x y
  refine ⟨⟨hasRow_of_wellFormed rfl, ?_⟩, ⟨hasRow_of_wellFormed rfl, ?_⟩⟩
  · exact setsRegisterAndFlag_of_writeResult (fun s => s.reg x >>> 1) (fun s => bitOutRight (s.reg x))
      (fun _ => rfl) (fun s => toNat_byte_shiftRight_one (s.reg x)) fun s => bitOutRight_eq (s.reg x)
  · exact setsRegisterAndFlag_of_writeResult (fun s => s.reg x <<< 1) (fun s => bitOutLeft (s.reg x))
      (fun _ => rfl) (fun s => toNat_byte_shiftLeft_one (s.reg x)) fun s => bitOutLeft_eq (s.reg x)

/-! ## Random (R94, R133) -/

theorem Ports.randomByte_cons {p : Ports} {b : Byte} {bs : List Byte} (h : p.randomInputs = b :: bs) :
    p.randomByte = b := by
  simp only [Ports.randomByte, h]

theorem Ports.afterRandom_cons {p : Ports} {b : Byte} {bs : List Byte} (h : p.randomInputs = b :: bs) :
    p.afterRandom = { p with randomInputs := bs } := by
  simp only [Ports.afterRandom, h]

/-- RND is one register write of the masked answer, with the ports advanced by the one draw. -/
theorem exec_rnd (x : Reg) (nn : Byte) (s : State) : exec (.rnd x nn) s =
    .next { s.setReg x (s.ports.randomByte &&& nn) with ports := s.ports.afterRandom } := rfl

/-- Settles O21: the byte is the answer the ports give, the first one fixed where there is one. -/
theorem randomDrawsOneByte : Obligations.RandomDrawsOneByte := by
  intro x nn s
  refine ⟨hasRow_of_wellFormed rfl, ?_, fun b bs hb => ?_⟩
  · exact ⟨s.ports.randomByte, _, exec_rnd x nn s, rfl, rfl, State.reg_setReg_same s x _,
      fun _ => State.reg_setReg_ne s _⟩
  · refine ⟨_, exec_rnd x nn s, ?_, Ports.afterRandom_cons hb⟩
    rw [← Ports.randomByte_cons hb]
    exact State.reg_setReg_same s x _

end Sys2Proof.Machine
end

section
/-! The index register and the I-relative accesses: the stores and the load of registers, with the address computed from
`I` and the fault that comes before any effect (spec/43_index_memory.md R140 to R146). -/

namespace Sys2Proof.Machine

/-! ## An access completes or faults by its last address (R48, R140, R203) -/

theorem exec_of_completes {i : Instr} {s : State} (h : completes s i = true) : exec i s = .next (complete i s) :=
  exec_of_faultOf_none (by simp [faultOf, h])

/-- An I-relative access outside memory records max(I, 0x1000), the lowest address of it that is outside. -/
theorem takesFault_outOfBounds {i : Instr} {s : State} (hk : i.faultKind = some .outOfBoundsMemoryAccess)
    (h : completes s i = false) : Claims.TakesFault i s .outOfBoundsMemoryAccess (max s.i.toNat 0x1000) :=
  ⟨s.outOfBoundsAddress, s.outOfBoundsAddress_toNat,
    exec_of_faultOf_some (by simp [faultOf, h, hk, State.faultAddress])⟩

/-! ## A run of stores, and a run of loads (R46, R47, R50) -/

section Stored

variable {s : State} {base : Nat} {ws : List Byte}

theorem State.readByte_storeBytes_inside {k : Nat} (hw : Memory.wf s.config s.mem = true)
    (hl : base + ws.length ≤ 4096) (hk : k < ws.length) : (s.storeBytes base ws).readByte (base + k) = ws[k] :=
  Memory.read_writeBytes_inside ws hw hl hk

theorem State.sameOutside_storeBytes {last : Nat} (hw : Memory.wf s.config s.mem = true) (hl : ws.length = last + 1)
    (hb : base + last ≤ 0xFFF) : Claims.SameOutside s (s.storeBytes base ws) base (base + last) := fun _ ha =>
  Memory.read_writeBytes_outside ws hw (by omega) (by omega)

end Stored

/-- After a bulk store inside memory, each of V0 to VX stands at its address (R145). -/
theorem State.readByte_storeRegs {s : State} {x r : Reg} (hw : Memory.wf s.config s.mem = true)
    (hi : s.i.toNat + x.val ≤ 0xFFF) (hr : r ≤ x) :
    (complete (.storeRegs x) s).readByte (s.i.toNat + r.val) = s.reg r := by
  have hlen := s.length_regsUpTo x
  have hlt : r.val < (s.regsUpTo x).length := hlen ▸ Nat.lt_succ_of_le hr
  exact (State.readByte_storeBytes_inside hw (by omega) hlt).trans (s.getElem_regsUpTo x r hlt)

/-- What each register holds after a bulk load that completes (R146). -/
theorem State.reg_loadRegs (s : State) (x r : Reg) :
    (complete (.loadRegs x) s).reg r = if r ≤ x then s.readByte (s.i.toNat + r.val) else s.reg r := by
  have hle : r ≤ x ↔ r.val < x.val + 1 := Nat.lt_succ_iff.symm
  simp only [hle]
  exact Registers.getElem_load s.mem s.i.toNat (x.val + 1) s.v r.val r.isLt

/-! ## The index register (R141 to R143) -/

/-- Settles O22. -/
theorem loadIndexImmediate : Obligations.LoadIndexImmediate :=
  fun nnn _ => ⟨hasRow_of_wellFormed rfl, _, rfl, rfl, toNat_immAddress nnn⟩

theorem toNat_regWord (w : Byte) : (regWord w).toNat = w.toNat :=
  BitVec.toNat_setWidth_of_le (by decide)

/-- The address of a glyph does not wrap (R143). -/
theorem toNat_glyphAddress (w : Byte) : (regWord w * 5).toNat = w.toNat * 5 := by
  have hw : w.toNat < 256 := w.isLt
  rw [BitVec.toNat_mul, toNat_regWord]
  exact Nat.mod_eq_of_lt (show w.toNat * 5 < 65536 by omega)

/-- Settles O23. -/
theorem indexAddAndGlyphAddress : Obligations.IndexAddAndGlyphAddress := by
  intro x s
  refine ⟨⟨hasRow_of_wellFormed rfl, _, rfl, rfl, ?_⟩, hasRow_of_wellFormed rfl, _, rfl, rfl, ?_⟩
  · exact (BitVec.toNat_add ..).trans (by rw [toNat_regWord])
  · exact toNat_glyphAddress (s.reg x)

/-! ## The BCD store (R144) -/

theorem toNat_digit {d : Nat} (hd : d < 256) : (BitVec.ofNat 8 d).toNat = d := Nat.mod_eq_of_lt hd

/-- Settles O24: the digits are a run of three stores from I upward. -/
theorem bcdStoresDigits : Obligations.BcdStoresDigits := by
  intro x s hw
  refine ⟨hasRow_of_wellFormed rfl, fun hi => ?_, fun hi => ?_⟩
  · have hl : s.i.toNat + (bcdDigits (s.reg x)).length ≤ 4096 := Nat.succ_le_succ hi
    have hread {k : Nat} (hk : k < 3) := State.readByte_storeBytes_inside (k := k) hw hl hk
    have hx : (s.reg x).toNat < 256 := (s.reg x).isLt
    refine ⟨_, exec_of_completes (decide_eq_true hi), rfl, ?_, ?_, ?_, State.sameOutside_storeBytes hw rfl hi⟩
    · exact (congrArg BitVec.toNat (hread (k := 0) (by decide))).trans (toNat_digit (by omega))
    · exact (congrArg BitVec.toNat (hread (k := 1) (by decide))).trans (toNat_digit (by omega))
    · exact (congrArg BitVec.toNat (hread (k := 2) (by decide))).trans (toNat_digit (by omega))
  · exact takesFault_outOfBounds rfl (decide_eq_false (Nat.not_le.mpr hi))

/-! ## The bulk store and the bulk load (R145, R146) -/

/-- Settles O25: the bulk store is a run of stores of V0 to VX from I upward. -/
theorem bulkStoreWritesRegisters : Obligations.BulkStoreWritesRegisters := by
  intro x s hw
  refine ⟨hasRow_of_wellFormed rfl, fun hi => ?_, fun hi => ?_⟩
  · exact ⟨_, exec_of_completes (decide_eq_true hi), rfl, fun _ => State.readByte_storeRegs hw hi,
      State.sameOutside_storeBytes hw (s.length_regsUpTo x) hi⟩
  · exact takesFault_outOfBounds rfl (decide_eq_false (Nat.not_le.mpr hi))

/-- Settles O26: the load writes the register file alone, and of it V0 to VX. -/
theorem bulkLoadReadsRegisters : Obligations.BulkLoadReadsRegisters := by
  intro x s
  refine ⟨hasRow_of_wellFormed rfl, fun hi => ?_, fun hi => ?_⟩
  · exact ⟨_, exec_of_completes (decide_eq_true hi), rfl, fun r hr => (s.reg_loadRegs x r).trans (if_pos hr),
      fun r hr => (s.reg_loadRegs x r).trans (if_neg (not_le.mpr hr))⟩
  · exact takesFault_outOfBounds rfl (decide_eq_false (Nat.not_le.mpr hi))

/-- Settles O27: the store leaves I, so the load reads each register's byte where the store put it. -/
theorem bulkLoadRestoresStoredRegisters : Obligations.BulkLoadRestoresStoredRegisters := by
  intro x s v' hw hi
  refine ⟨complete (.storeRegs x) s, complete (.loadRegs x) { complete (.storeRegs x) s with v := v' },
    exec_of_completes (decide_eq_true hi), exec_of_completes (decide_eq_true hi), fun r => ?_⟩
  rw [State.reg_loadRegs]
  exact if_ctx_congr Iff.rfl (State.readByte_storeRegs hw hi) fun _ => rfl

end Sys2Proof.Machine
end

section
/-! The display: the clear, the draw as an XOR of the sprite into the grid, and the draw done twice (spec/44_display.md
R160 to R163). -/

namespace Sys2Proof.Machine

/-! ## The clear (R160) -/

/-- Settles O29: the clear writes the framebuffer alone. -/
theorem clearScreenClearsAllPixels : Obligations.ClearScreenClearsAllPixels :=
  fun _ _ => ⟨hasRow_of_wellFormed rfl, _, rfl, rfl, fun x y _ _ => Framebuffer.pixel_clear x y⟩

/-! ## The framebuffer and the collision after a draw (R161, R162) -/

/-- A lit pixel is in the grid (R23). -/
theorem Framebuffer.inGrid_of_pixel {fb : Framebuffer} {px py : Nat} (h : Framebuffer.pixel fb px py = true) :
    px < 64 ∧ py < 32 := by
  by_contra hout
  rw [Framebuffer.pixel_outside fb hout] at h
  cases h

/-- The bit of the sprite that the draw lays over column `px`, row `py` (R161, R162 (a)). -/
def State.drawBit (s : State) (x y : Reg) (n px py : Nat) : Bool :=
  spriteBit (Claims.spriteRows s n) (s.reg x).toNat (s.reg y).toNat px py

section Drawn

variable (s : State) (x y : Reg) (n : Nat)

/-- The rows a draw lays down are the bytes from `I` upward. -/
theorem State.drawn_eq :
    s.drawn x y n = Framebuffer.drawSprite (s.reg x).toNat (s.reg y).toNat (Claims.spriteRows s n) s.fb := by
  rw [State.drawn, State.readBytes_eq]
  rfl

/-- A draw XORs its bit into each pixel of the grid. -/
theorem State.pixel_drawn {px py : Nat} (hx : px < 64) (hy : py < 32) :
    Framebuffer.pixel (s.drawn x y n).1 px py = (Framebuffer.pixel s.fb px py ^^ s.drawBit x y n px py) := by
  rw [State.drawn_eq, Framebuffer.pixel_drawSprite, decide_eq_true ⟨hx, hy⟩, Bool.and_true, State.drawBit]

/-- A draw collides exactly where a bit of it in the grid meets a lit pixel. -/
theorem State.collision_drawn : (s.drawn x y n).2 = true ↔
    ∃ px py, px < 64 ∧ py < 32 ∧ s.drawBit x y n px py = true ∧ Framebuffer.pixel s.fb px py = true := by
  rw [State.drawn_eq, Framebuffer.collision_drawSprite]
  constructor
  · rintro ⟨px, py, hbit, hlit⟩
    obtain ⟨hx, hy⟩ := Framebuffer.inGrid_of_pixel hlit
    exact ⟨px, py, hx, hy, hbit, hlit⟩
  · rintro ⟨px, py, -, -, hbit, hlit⟩
    exact ⟨px, py, hbit, hlit⟩

/-- A draw whose bytes are inside memory completes. -/
theorem exec_draw (h : n = 0 ∨ s.i.toNat + n - 1 ≤ 0xFFF) :
    exec (.drw x y n) s = .next (complete (.drw x y n) s) :=
  exec_of_completes (decide_eq_true h)

/-- A draw leaves the collision in VF. -/
theorem reg_flag_draw : (complete (.drw x y n) s).reg 15 = flagByte (s.drawn x y n).2 :=
  State.reg_setFlag_same s _

/-- A draw leaves every register but VF. -/
theorem reg_draw_ne {r : Reg} (h : r ≠ 15) : (complete (.drw x y n) s).reg r = s.reg r :=
  State.reg_setFlag_ne s _ h

end Drawn

/-- Settles O30, by what a draw does to each pixel and when it collides. -/
theorem drawXorsSpriteAndReportsCollision : Obligations.DrawXorsSpriteAndReportsCollision := by
  intro x y n s hn bit
  have hflag := reg_flag_draw s x y n
  have hcollision := State.collision_drawn s x y n
  refine ⟨hasRow_of_wellFormed (decide_eq_true hn), fun hin => ?_, fun h0 hout => ?_⟩
  · exact ⟨_, exec_draw s x y n hin, rfl, fun _ _ => State.pixel_drawn s x y n,
      fun hlit => hflag.trans (congrArg flagByte (hcollision.mpr hlit)),
      fun hdark => hflag.trans (congrArg flagByte (Bool.eq_false_of_not_eq_true (mt hcollision.mp hdark))),
      fun _ => reg_draw_ne s x y n⟩
  · exact takesFault_outOfBounds rfl (decide_eq_false (not_or.mpr ⟨h0, Nat.not_le.mpr hout⟩))

/-! ## The same draw twice (R163) -/

theorem flagByte_eq_zero_or_one (b : Bool) : flagByte b = 0 ∨ flagByte b = 1 := by
  cases b
  · exact .inl rfl
  · exact .inr rfl

theorem flagByte_eq_one_iff (b : Bool) : flagByte b = 1 ↔ b = true := by
  cases b <;> decide

section Twice

variable (s : State) {x y : Reg} (n : Nat)

/-- A draw leaves the bits of the next one, unless it overwrites a coordinate. -/
theorem drawBit_draw (hx : x ≠ 15) (hy : y ≠ 15) (px py : Nat) :
    (complete (.drw x y n) s).drawBit x y n px py = s.drawBit x y n px py := by
  rw [State.drawBit, reg_draw_ne s x y n hx, reg_draw_ne s x y n hy]
  rfl

/-- XOR with the same bits twice is no change. -/
theorem fb_draw_draw (hx : x ≠ 15) (hy : y ≠ 15) :
    (complete (.drw x y n) (complete (.drw x y n) s)).fb = s.fb := by
  refine Framebuffer.ext_pixel fun px py hpx hpy => ?_
  calc Framebuffer.pixel ((complete (.drw x y n) s).drawn x y n).1 px py
      = (Framebuffer.pixel (s.drawn x y n).1 px py ^^ (complete (.drw x y n) s).drawBit x y n px py) :=
        State.pixel_drawn _ x y n hpx hpy
    _ = ((Framebuffer.pixel s.fb px py ^^ s.drawBit x y n px py) ^^ s.drawBit x y n px py) := by
        rw [State.pixel_drawn s x y n hpx hpy, drawBit_draw s n hx hy]
    _ = Framebuffer.pixel s.fb px py := by rw [Bool.xor_assoc, Bool.xor_self, Bool.xor_false]

/-- A pixel under a set bit is lit after the first draw exactly if it was dark before it, so the second draw collides
where a set bit fell on a dark pixel. -/
theorem collision_draw_draw (hx : x ≠ 15) (hy : y ≠ 15) : ((complete (.drw x y n) s).drawn x y n).2 = true ↔
    ∃ px py, px < 64 ∧ py < 32 ∧ s.drawBit x y n px py = true ∧ Framebuffer.pixel s.fb px py = false := by
  rw [State.collision_drawn]
  refine exists₂_congr fun px py => and_congr_right fun hpx => and_congr_right fun hpy => ?_
  rw [drawBit_draw s n hx hy]
  refine and_congr_right fun hbit => ?_
  have hpixel : Framebuffer.pixel (complete (.drw x y n) s).fb px py = !Framebuffer.pixel s.fb px py := by
    rw [← Bool.xor_true, ← hbit]
    exact State.pixel_drawn s x y n hpx hpy
  rw [hpixel, Bool.not_eq_true']

end Twice

/-- Settles O31: a draw of no row lays down nothing, and the second of two draws is one of the same bits. -/
theorem drawTwiceRestores : Obligations.DrawTwiceRestores := by
  refine ⟨fun x y s => ?_, fun x y n s hx hy hin => ?_⟩
  · exact ⟨_, exec_draw s x y 0 (.inl rfl), rfl, rfl, reg_flag_draw s x y 0,
      fun _ => reg_draw_ne s x y 0⟩
  · have hfb := fb_draw_draw s n hx hy
    have hflag := reg_flag_draw (complete (.drw x y n) s) x y n
    refine ⟨complete (.drw x y n) s, complete (.drw x y n) (complete (.drw x y n) s),
      exec_draw s x y n hin, exec_draw _ x y n hin, ?_, hfb, fun r hr => ?_, ?_, ?_⟩
    · exact congrArg (fun fb => { complete (.drw x y n) (complete (.drw x y n) s) with fb := fb }) hfb
    · exact (reg_draw_ne _ x y n hr).trans (reg_draw_ne s x y n hr)
    · rw [hflag]
      exact flagByte_eq_zero_or_one _
    · rw [hflag, flagByte_eq_one_iff]
      exact collision_draw_draw s n hx hy

end Sys2Proof.Machine
end

section
/-! The key skips, the transfers of the two timers, and the latch of the key wait (spec/45_keys_timers.md R170 to
R175). -/

namespace Sys2Proof.Machine

/-! ## The key skips (R170, R171, R206) -/

/-- A skip that is taken steps over one word, modulo 2^16 (R8). -/
theorem State.toNat_skipIf_pc {b : Bool} (s : State) (h : b = true) :
    (s.skipIf b).pc.toNat = (s.pc.toNat + 2) % 65536 := by
  simp [h, BitVec.toNat_add]

/-- A skip that is not taken leaves `pc`. -/
theorem State.skipIf_pc_of_false {b : Bool} (s : State) (h : b = false) : (s.skipIf b).pc = s.pc := by
  simp [h]

/-- A key skip on a value above 15 records the address it was fetched from. -/
theorem takesFault_badKeyIndex {i : Instr} {s : State} (hk : i.faultKind = some .badKeyIndex)
    (h : completes s i = false) : Claims.TakesFault i s .badKeyIndex (Claims.fetchedFrom s) :=
  takesFault_at_instrAddress (exec_of_faultOf_some (by simp [faultOf, h, hk, State.faultAddress]))

/-- Settles O33: on a key's number SKP is `skipIf` of the key and SKNP `skipIf` of its negation; above 15 neither
completes. -/
theorem keySkips : Obligations.KeySkips := by
  intro x s
  refine ⟨hasRow_of_wellFormed rfl, hasRow_of_wellFormed rfl, fun hkey => ?_, fun hbad => ?_⟩
  · have hin := decide_eq_true hkey
    refine ⟨complete (.skp x) s, complete (.sknp x) s, exec_of_completes hin, exec_of_completes hin, rfl, rfl,
      fun hpressed => ?_, fun hup => ?_⟩
    · exact ⟨s.toNat_skipIf_pc hpressed, s.skipIf_pc_of_false ((Bool.not_eq_false' _).mpr hpressed)⟩
    · exact ⟨s.toNat_skipIf_pc ((Bool.not_eq_true' _).mpr hup), s.skipIf_pc_of_false hup⟩
  · have hout := decide_eq_false (Nat.not_le.mpr hbad)
    exact ⟨takesFault_badKeyIndex rfl hout, takesFault_badKeyIndex rfl hout⟩

/-! ## The timers and the key wait (R172 to R175) -/

/-- Settles O34: the read is one register write of DT; the write reaches DT alone. -/
theorem delayTimerTransfers : Obligations.DelayTimerTransfers := by
  refine fun x => ⟨⟨hasRow_of_wellFormed rfl, ?_⟩, hasRow_of_wellFormed rfl, fun s => ?_⟩
  · exact setsRegister_of_setReg (fun s => s.dt) (fun _ => rfl) fun _ => rfl
  · exact ⟨{ s with dt := s.reg x }, rfl, rfl, rfl⟩

/-- Settles O35: each of the two writes one component of the state; the event list and `pc` are others. -/
theorem soundTimerAndKeyWaitLatch : Obligations.SoundTimerAndKeyWaitLatch := by
  refine fun x s => ⟨⟨hasRow_of_wellFormed rfl, ?_⟩, hasRow_of_wellFormed rfl, ?_⟩
  · exact ⟨{ s with st := s.reg x }, rfl, rfl, rfl, rfl⟩
  · exact ⟨{ s with kw := .waiting x }, rfl, rfl, rfl⟩

end Sys2Proof.Machine
end

section
/-! Exceptions: what sets the fault latch, what a set latch stops, and the codes of the faults and of a rejected load
(spec/60_exceptions.md R200, R204 to R207, R209, R212; spec/70_reset_and_hazards.md R232). -/

namespace Sys2Proof.Machine

/-! ## Precise faults (R204, R212) -/

/-- Settles O38: in a core that was not faulted the latch shows the fault the instruction took, and an instruction that
takes one changes nothing else. -/
theorem faultsArePrecise : Obligations.FaultsArePrecise := by
  intro i s t r hs h ht
  have hf : faultOf i s = some r := (fault_eq_faultOf h hs).symm.trans ht
  obtain ⟨hkind, -, hop⟩ := faultOf_eq_some hf
  exact ⟨hkind, hop, Host.Outcome.next.inj (h.symm.trans (exec_of_faultOf_some hf))⟩

/-! ## The faulted core (R204, R205) -/

/-- A core that is not faulted takes its step: a cycle or the timer step. -/
theorem step_next_of_unfaulted {s : State} (hf : s.fault = none) : ∃ t, step s = .next t := by
  obtain hc | hc := Nat.lt_or_ge s.cycle s.config.cyclesPerTick
  · rw [step_of_cycle hf hc]
    exact State.runCycle_next _
  · exact ⟨s.endTick, step_of_end hf hc⟩

/-- A tick on a faulted core changes nothing and returns failed with no events (R205). -/
theorem State.tick_of_fault {s : State} {r : FaultRecord} (keys : KeyState) (hf : s.fault = some r) :
    s.tick keys = .next { state := s, events := [], ok := false } := by
  simp [State.tick, hf]

/-- Settles O49: an unfaulted core takes its cycle or its timer step; a set latch stops the step and fails the tick. -/
theorem onlyFaultedCoreIsStuck : Obligations.OnlyFaultedCoreIsStuck :=
  ⟨fun _ => ⟨step_next_of_unfaulted, fun ⟨_, h⟩ => (step_cases h).1⟩,
    fun _ _ hf => ⟨step_of_fault hf, fun keys => State.tick_of_fault keys hf⟩⟩

/-! ## The codes (R200, R207, R209) -/

/-- The latch shows 0 with no fault only: every kind's code is nonzero. -/
theorem State.faultCode_eq_zero {s : State} : s.faultCode = 0 ↔ s.fault = none := by
  refine ⟨fun h => ?_, State.faultCode_of_none⟩
  cases hf : s.fault with
  | none => rfl
  | some r => exact absurd ((State.faultCode_of_some hf).symm.trans h) r.kind.code_ne_zero

/-- After an instruction the latch shows 0, or the code of the kind that instruction can raise. -/
theorem faultCode_of_exec {i : Instr} {s t : State} (hs : s.fault = none) (h : exec i s = .next t) :
    t.faultCode = 0 ∨ i.faultKind.map FaultKind.code = some t.faultCode := by
  have hlatch : t.fault = faultOf i s := fault_eq_faultOf h hs
  cases hf : faultOf i s with
  | none => exact .inl (State.faultCode_of_none (hlatch.trans hf))
  | some r =>
    obtain ⟨hkind, -, -⟩ := faultOf_eq_some hf
    rw [hkind, State.faultCode_of_some (hlatch.trans hf)]
    exact .inr rfl

/-- Everything a load can do (R207, R232): write its image, reject it, or have no move. -/
theorem State.load_cases (s : State) (image : List Byte) :
    (s = s.reboot ∧ image.length ≤ 3584 ∧ s.load image = .ok (s.storeBytes 0x200 image)) ∨
    (s = s.reboot ∧ 3584 < image.length ∧ s.load image = .oversizedCartridge) ∨
    (s ≠ s.reboot ∧ s.load image = .noMove) := by
  by_cases hs : s = s.reboot
  · obtain hl | hl := Nat.lt_or_ge maxImage image.length
    · exact .inr (.inl ⟨hs, hl, (if_pos hs).trans (if_pos hl)⟩)
    · exact .inl ⟨hs, hl, (if_pos hs).trans (if_neg (Nat.not_lt.mpr hl))⟩
  · exact .inr (.inr ⟨hs, if_neg hs⟩)

/-- A load has a code when it rejects its image in the reset state, and only then. -/
theorem State.load_code_eq_some {s : State} {image : List Byte} {n : Nat} :
    (s.load image).code = some n ↔ n = 5 ∧ s = s.reboot ∧ 3584 < image.length := by
  obtain ⟨-, hl, h⟩ | ⟨hs, hl, h⟩ | ⟨hs, h⟩ := State.load_cases s image
  · simp [h, Nat.not_lt.mpr hl]
  · simp [h, ← hs, hl, eq_comm]
  · simp [h, hs]

/-- Settles O56: the codes of the table, then the latch's, an instruction's, a load's and an unknown word's. -/
theorem codesOfFaultsAndLoadError : Obligations.CodesOfFaultsAndLoadError := by
  refine ⟨⟨rfl, rfl, rfl, rfl⟩, fun s => ⟨State.faultCode_eq_zero, fun _ => State.faultCode_of_some⟩,
    fun _ _ _ => faultCode_of_exec, fun s image => ⟨?_, fun n hn => ?_⟩, fun op s hop => ?_⟩
  · exact State.load_code_eq_some.trans (and_iff_right rfl)
  · obtain ⟨h5, hs, -⟩ := State.load_code_eq_some.mp hn
    exact ⟨h5, hs ▸ State.faultCode_of_none s.reboot_fault⟩
  · exact ⟨_, executeWord_of_none hop s, rfl, rfl⟩

end Sys2Proof.Machine
end

section
/-! Reset and load: the fresh machine, the image in memory, and the order of the host's operations
(spec/70_reset_and_hazards.md R230 to R233). -/

namespace Sys2Proof.Machine

/-! ## The fresh machine (R231) -/

/-- Settles O6: the fresh machine is its own reset, so the elements the source checks are those reset gives. -/
theorem freshMachinePassesSourceCheck : Obligations.FreshMachinePassesSourceCheck := by
  intro c p
  obtain ⟨-, -, h0, h4, h13, -, hreg, hi, hpc, -⟩ := resetFromAnyState (State.resetWith c p)
  exact ⟨hpc, hreg, hi, rfl, fun x y _ _ => Framebuffer.pixel_clear x y, h0, h13 1 (by decide) (by decide),
    h13 2 (by decide) (by decide), h13 3 (by decide) (by decide), h4⟩

/-! ## The load (R47, R207, R232) -/

section Load

variable {s : State} {image : List Byte}

theorem State.mem_wf_of_eq_reboot (hs : s = s.reboot) : Memory.wf s.config s.mem = true := by
  have hmem : s.mem = [] := congrArg State.mem hs
  rw [hmem, Memory.wf_nil]

theorem State.load_of_fits (hs : s = s.reboot) (hl : image.length ≤ 3584) :
    s.load image = .ok (s.storeBytes 0x200 image) := by
  obtain ⟨-, -, h⟩ | ⟨-, hgt, -⟩ | ⟨hne, -⟩ := s.load_cases image
  · exact h
  · exact absurd hl (Nat.not_le.mpr hgt)
  · exact absurd hs hne

theorem State.load_of_oversized (hs : s = s.reboot) (hl : 3584 < image.length) :
    s.load image = .oversizedCartridge := by
  obtain ⟨-, hle, -⟩ | ⟨-, -, h⟩ | ⟨hne, -⟩ := s.load_cases image
  · exact absurd hl (Nat.not_lt.mpr hle)
  · exact h
  · exact absurd hs hne

theorem State.load_of_ne_reboot (hs : s ≠ s.reboot) : s.load image = .noMove := by
  obtain ⟨h, -⟩ | ⟨h, -⟩ | ⟨-, h⟩ := s.load_cases image
  · exact absurd h hs
  · exact absurd h hs
  · exact h

end Load

/-- Settles O9: an image that fits is one run of stores from 0x200, all inside memory. -/
theorem loadWritesImageVerbatim : Obligations.LoadWritesImageVerbatim := by
  refine fun s image => ⟨fun hs hl => ?_, State.load_of_oversized, State.load_of_ne_reboot⟩
  have hw := State.mem_wf_of_eq_reboot hs
  have hin : 0x200 + image.length ≤ 4096 := by omega
  exact ⟨s.storeBytes 0x200 image, State.load_of_fits hs hl, rfl, Memory.wf_writeBytes image hw hin,
    fun _ hk => State.readByte_storeBytes_inside hw hin hk, fun _ ha => Memory.read_writeBytes_outside image hw hin ha⟩

/-! ## The boot order (R230, R232, R233) -/

section BootOrder

variable {s : Session} {image : List Byte} {keys : KeyState}

/-- On a fresh core a load that writes its image ends the boot. -/
theorem Session.load_of_ok {t : State} (hp : s.phase = .fresh) (h : s.core.load image = .ok t) :
    s.load image = some (⟨.loaded, t⟩, .loadOk) := by
  simp [Session.load, hp, h]

/-- On a fresh core a rejected load leaves the core and closes the way to a tick. -/
theorem Session.load_of_oversized (hp : s.phase = .fresh) (h : s.core.load image = .oversizedCartridge) :
    s.load image = some (⟨.rejected, s.core⟩, .oversizedCartridge) := by
  simp [Session.load, hp, h]

/-- There is one load after a reset. -/
theorem Session.load_of_ne_fresh (hp : s.phase ≠ .fresh) : s.load image = none := by
  unfold Session.load
  cases h : s.phase with
  | fresh => exact absurd h hp
  | loaded => rfl
  | rejected => rfl

/-- After a load that returned ok, a tick of the session is a tick of its core. -/
theorem Session.tick_of_loaded {r : TickResult} (hp : s.phase = .loaded) (h : s.core.tick keys = .next r) :
    s.tick keys = some (⟨.loaded, r.state⟩, .ticked r.events r.ok) := by
  simp [Session.tick, hp, h]

/-- There is no tick before a load that returned ok. -/
theorem Session.tick_of_ne_loaded (hp : s.phase ≠ .loaded) : s.tick keys = none := by
  unfold Session.tick
  cases h : s.phase with
  | fresh => rfl
  | loaded => exact absurd h hp
  | rejected => rfl

end BootOrder

/-- Settles O55: the load's three outcomes by the phase, and a tick that always returns. -/
theorem hostOperationsFollowBootOrder : Obligations.HostOperationsFollowBootOrder := by
  refine fun s image keys => ⟨rfl, fun hp hs hl => ?_, fun hp hs hl => ?_, Session.load_of_ne_fresh, fun hp => ?_,
    Session.tick_of_ne_loaded⟩
  · have hload := State.load_of_fits hs hl
    exact ⟨_, hload, Session.load_of_ok hp hload⟩
  · exact Session.load_of_oversized hp (State.load_of_oversized hs hl)
  · obtain ⟨r, hr⟩ := s.core.tick_next keys
    exact ⟨r, hr, Session.tick_of_loaded hp hr⟩

end Sys2Proof.Machine
end
